-- ==== Sys2Proof/Word.lean ====
section
/-! DEFINITION. The two bit-vector types of the block: an 8-bit sample or FMEM byte (00_scope.md R8, 10_state.md R40)
and a 32-bit register, command word or host datum (00_scope.md R8, 30_encoding.md R90). Everything else the spec computes
with is an exact integer (00_scope.md R10), a `Nat` or an `Int` here. -/

namespace Sys2Proof

/-- One FMEM byte, one sample (00_scope.md R8). -/
abbrev Byte := BitVec 8

/-- One 32-bit register value or command word (00_scope.md R8). -/
abbrev Word := BitVec 32

end Sys2Proof
end

