-- ==== Sys2Proof/Config.lean ====
section
/-! DEFINITION. What an implementation fixes (00_scope.md R6) and the free values of the spec (93_implementation_defined.md
U2, U4). The parameters are an argument of the model: `Machine.State` carries one `Params`, no step changes it, and every
claim over states is a claim over all of them (log entry 3). -/

namespace Sys2Proof

/-- One row of the colour matrix, in units of 1/10000 (41_color_transform.md R131). -/
structure CoeffRow where
  kR : Int
  kG : Int
  kB : Int
  kOff : Int
  deriving DecidableEq, Repr

/-- The forward colour matrix `CSC_K`: one row per output channel (41_color_transform.md R131). -/
structure CscMatrix where
  y : CoeffRow
  u : CoeffRow
  v : CoeffRow
  deriving DecidableEq, Repr

/-- The default of `CSC_K`: the literals of 41_color_transform.md R130, times 10000 (R131). -/
def CscMatrix.default : CscMatrix :=
  { y := ⟨2990, 5870, 1140, 0⟩
    u := ⟨-1690, -3310, 4490, 1280000⟩
    v := ⟨4990, -4180, -813, 1280000⟩ }

/-- The three parameters of 00_scope.md R6. -/
structure Params where
  /-- `FMEM_SIZE`, the number of bytes of frame memory. -/
  fmemSize : Nat
  /-- `CSC_K`, the forward colour matrix. -/
  cscK : CscMatrix
  /-- `HOST_BASE`, the system address of aperture offset 0 (20_memory.md R61). -/
  hostBase : Nat
  deriving DecidableEq, Repr

/-- The defaults of 00_scope.md R6. DESIGN CHOICE: `HOST_BASE` has no default in the spec; 0 stands here and no rule of the
block depends on it (log entry 3). -/
def Params.default : Params :=
  { fmemSize := 0x00100000, cscK := CscMatrix.default, hostBase := 0 }

/-- The n-th free value drawn: a byte the spec leaves unspecified (20_memory.md R71, 70_reset_and_hazards.md R271;
93_implementation_defined.md U2, U4). It has no body, so no proof can know it (log entry 5). -/
opaque Config.freeByte : Nat → Byte

end Sys2Proof
end

