-- ==== Sys2Proof/Syntax.lean ====
section
/-! DEFINITION. The seven commands of the block (30_encoding.md R92, spec/opcode_table.json). The command word carries no
immediate and no register number (R91), so no constructor has a field. -/

namespace Sys2Proof

/-- One command, one constructor per row of spec/opcode_table.json. -/
inductive Instr where
  /-- `NOP`, 40_command_execution.md R120. -/
  | nop
  /-- `CSC`, 41_color_transform.md R134. -/
  | csc
  /-- `SUB`, 42_chroma.md R152. -/
  | sub
  /-- `PACK`, 43_planar_packer.md R182. -/
  | pack
  /-- `DELTA`, 44_temporal_delta.md R201. -/
  | delta
  /-- `UPS`, 42_chroma.md R154. -/
  | ups
  /-- `DSEQ`, 44_temporal_delta.md R205. -/
  | dseq
  deriving DecidableEq, Repr

end Sys2Proof
end

