-- ==== Sys2Proof/WellFormed.lean ====
section
/-! DEFINITION. The checks on data that come from outside the machine: a command word (30_encoding.md R93), an instruction
(R91: no operand field, so every constructor is well formed) and a choice of the parameters (00_scope.md R6,
93_implementation_defined.md U8). -/

namespace Sys2Proof

/-- A command word is legal: `RSV = 0` and `OPC` in 0x00..0x06 (30_encoding.md R90, R92, R93). -/
def commandWordWellFormed (v : Word) : Bool :=
  (v.extractLsb' 8 24).toNat == 0 && decide ((v.extractLsb' 0 8).toNat ≤ 0x06)

/-- Every instruction is well formed: the word has no operand field (30_encoding.md R91). -/
def Instr.wellFormed : Instr → Bool
  | .nop => true
  | .csc => true
  | .sub => true
  | .pack => true
  | .delta => true
  | .ups => true
  | .dseq => true

/-- The legal parameter values: `1 <= FMEM_SIZE <= 2^24`, any matrix, any base (00_scope.md R6). -/
def Params.legal (p : Params) : Bool :=
  decide (1 ≤ p.fmemSize) && decide (p.fmemSize ≤ 0x01000000)

end Sys2Proof
end

