-- ==== Sys2Proof/Decode.lean ====
section
/-! DEFINITION. Decoding of a command word, total on all 2^32 words and refusing by name (30_encoding.md R94), and after it
the encoder, written from the opcode map (R92). -/

namespace Sys2Proof

/-- Why a word is illegal (30_encoding.md R93). Both reasons are reported by the block as `ILLEGAL_CMD`. -/
inductive DecodeError where
  /-- `RSV != 0`. -/
  | reservedBits
  /-- `OPC` in 0x07..0xFF. -/
  | reservedOpcode
  deriving DecidableEq, Repr

/-- `OPC`, bits [7:0] of a command word (30_encoding.md R90). -/
def opcField (v : Word) : BitVec 8 := v.extractLsb' 0 8

/-- `RSV`, bits [31:8] of a command word (30_encoding.md R90). -/
def rsvField (v : Word) : BitVec 24 := v.extractLsb' 8 24

/-- The opcode map of 30_encoding.md R92. -/
def decodeOpcode (opc : Nat) : Except DecodeError Instr :=
  match opc with
  | 0x00 => .ok .nop
  | 0x01 => .ok .csc
  | 0x02 => .ok .sub
  | 0x03 => .ok .pack
  | 0x04 => .ok .delta
  | 0x05 => .ok .ups
  | 0x06 => .ok .dseq
  | _ => .error .reservedOpcode

/-- `decode(v)` of 30_encoding.md R94. -/
def decode (v : Word) : Except DecodeError Instr :=
  if rsvField v ≠ 0 then .error .reservedBits else decodeOpcode (opcField v).toNat

/-- The instruction the decoder reads from a table word of `nbits` bits: the bits above `nbits` are 0 and a value of more
than 32 bits is no command word (30_encoding.md R90). -/
def decodeTableWord (nbits w : Nat) : Option Instr :=
  let v := w % 2 ^ nbits
  if v < 2 ^ 32 then
    match decode (BitVec.ofNat 32 v) with
    | .ok i => some i
    | .error _ => none
  else none

/-- The command word of each mnemonic (30_encoding.md R92). -/
def encode : Instr → Word
  | .nop => 0x00000000#32
  | .csc => 0x00000001#32
  | .sub => 0x00000002#32
  | .pack => 0x00000003#32
  | .delta => 0x00000004#32
  | .ups => 0x00000005#32
  | .dseq => 0x00000006#32

end Sys2Proof
end

