-- ==== Sys2Proof/Machine/State.lean ====
section
/-! DEFINITION. The state of the block (10_state.md R45) as plain data, the inputs from outside it, the reasons a step can
stop, and the state after reset (R49). -/

namespace Sys2Proof.Machine

/-- A cause code of 60_exceptions.md R231. The reserved codes 0x07..0xFF are never recorded, so they are no value here. -/
inductive Cause where
  /-- 0x00 `NONE`: the last evaluated `CMD` write was accepted. -/
  | none
  /-- 0x01 `ILLEGAL_CMD`. -/
  | illegalCmd
  /-- 0x02 `ZERO_DIMENSION`. -/
  | zeroDimension
  /-- 0x03 `ODD_DIMENSION`. -/
  | oddDimension
  /-- 0x04 `DIMENSION_MISMATCH`. -/
  | dimensionMismatch
  /-- 0x05 `ADDR_RANGE`. -/
  | addrRange
  /-- 0x06 `OVERLAP`. -/
  | overlap
  deriving DecidableEq, Repr

/-- The size of a host access, 1, 2 or 4 bytes (20_memory.md R63). -/
inductive AccessSize where
  | b1
  | b2
  | b4
  deriving DecidableEq, Repr

/-- What can happen at the block from outside (00_scope.md R12, R13; 20_memory.md R77). An offset is an aperture offset: the
aperture is 0x0200_0000 = 2^25 bytes long (20_memory.md R61; log entry 12). -/
inductive Input where
  /-- A host read of `size` bytes at an aperture offset. -/
  | read (offset : BitVec 25) (size : AccessSize)
  /-- A host write; of `data` a narrower access carries the low bytes (20_memory.md R64). -/
  | write (offset : BitVec 25) (size : AccessSize) (data : Word)
  /-- The engine's turn: the completion step falls here if a command is in flight (40_command_execution.md R114). -/
  | engine
  /-- The reset input is asserted (70_reset_and_hazards.md R270). -/
  | reset
  deriving DecidableEq, Repr

/-- The latched command `LC` of 10_state.md R42. -/
structure Latched where
  /-- `OPC`, decoded (40_command_execution.md R110: `LC <- (decode(v), ..)`). -/
  op : Instr
  w : BitVec 16
  h : BitVec 16
  src : Word
  len : Word
  aux : Word
  dst : Word
  deriving DecidableEq, Repr

/-- FMEM as a list of (address, byte) pairs in one canonical form, see `Memory.wf` (10_state.md R40). -/
abbrev Memory := List Host.Cell

/-- The whole state of the block (10_state.md R45), the parameters it was built with, and the model's own fields. -/
structure State where
  /-- The parameters of 00_scope.md R6; no step changes them (log entry 3). -/
  params : Params
  /-- `WIDTH.W`, 10_state.md R23. -/
  width : BitVec 16
  /-- `HEIGHT.H`, 10_state.md R24. -/
  height : BitVec 16
  /-- `SRC_ADDR`, 10_state.md R25. -/
  srcAddr : Word
  /-- `SRC_LEN`, 10_state.md R26. -/
  srcLen : Word
  /-- `AUX_ADDR`, 10_state.md R27. -/
  auxAddr : Word
  /-- `DST_ADDR`, 10_state.md R28. -/
  dstAddr : Word
  /-- `LC`, 10_state.md R42, present exactly while `STATUS.BUSY = 1` (R30; log entry 2). -/
  lc : Option Latched
  /-- `STATUS.SEQ_VALID`, 10_state.md R30. -/
  seqValid : Bool
  /-- `ERR_CAUSE.CAUSE`, 10_state.md R31. -/
  errCause : Cause
  /-- `IRQ_EN[2:0]`, 10_state.md R32. -/
  irqEn : BitVec 3
  /-- `IRQ_STATUS[2:0]`, 10_state.md R33. -/
  irqStatus : BitVec 3
  /-- `PREV_ADDR`, 10_state.md R34. -/
  prevAddr : Word
  /-- `PREV_LEN`, 10_state.md R35. -/
  prevLen : Word
  /-- `DELTA_COUNT`, 10_state.md R36. -/
  deltaCount : Word
  /-- FMEM, 10_state.md R40. -/
  mem : Memory
  /-- The model's own: what happens next at the block, oldest first (log entry 4). -/
  inputs : List Input
  /-- The model's own: what the last host read gave back (20_memory.md R77; log entry 6). -/
  lastRead : Option Word
  /-- The model's own: how many free values have been drawn (log entry 5). -/
  draws : Nat
  deriving DecidableEq, Repr

/-- Why a step stops. -/
inductive Fault where
  /-- Raised by a host FMEM write to a source or destination byte of the command in flight (20_memory.md R72, 93 U3: "fault").
  Safe: hardware goes on with unspecified bytes. -/
  | hostWriteUnderCommand
  /-- Raised by a command whose latched operands reach past FMEM. Acceptance rules this out (40_command_execution.md R111), so
  only states no run reaches raise it. Safe. -/
  | addressBeyondFmem
  /-- Raised by a command's meaning when no command is latched: the engine's step is enabled only while busy
  (40_command_execution.md R114), and `step` never calls a meaning otherwise. Safe. -/
  | noCommandInFlight
  deriving DecidableEq, Repr

/-- What the model does not accept. -/
inductive Refusal where
  /-- Raised by an arm of `exec` whose instruction has no meaning yet. Safe. -/
  | notModelled (mnemonic : String)
  /-- Raised by `step` when `FMEM_SIZE` is outside 1..2^24 (93_implementation_defined.md U8: "A model must `refuse`"). Safe. -/
  | illegalParameters
  deriving DecidableEq, Repr

/-- Power-up: every register at its reset value (10_state.md R49, 70_reset_and_hazards.md R272) with the given parameters and
with FMEM holding the given contents (93_implementation_defined.md U1). -/
def State.powerUp (p : Params) (contents : Memory) : State :=
  { params := p
    width := 0, height := 0
    srcAddr := 0, srcLen := 0, auxAddr := 0, dstAddr := 0
    lc := Option.none
    seqValid := false
    errCause := .none
    irqEn := 0, irqStatus := 0
    prevAddr := 0, prevLen := 0, deltaCount := 0
    mem := contents
    inputs := [], lastRead := Option.none, draws := 0 }

/-- The machine right after reset (10_state.md R49), with the default parameters and no FMEM byte listed (log entry 1). -/
def State.reset : State := State.powerUp Params.default []

end Sys2Proof.Machine
end

