-- ==== Sys2Proof/Machine/Flags.lean ====
section
/-! DEFINITION. Every status bit of the block: the `STATUS` word (10_state.md R30), the cause codes (60_exceptions.md R231),
the pending bits (10_state.md R33) and the interrupt output (10_state.md R44, 60_exceptions.md R238). -/

namespace Sys2Proof.Machine

/-- The code of a cause as `ERR_CAUSE.CAUSE` shows it (60_exceptions.md R231). -/
def Cause.code : Cause → BitVec 8
  | .none => 0x00#8
  | .illegalCmd => 0x01#8
  | .zeroDimension => 0x02#8
  | .oddDimension => 0x03#8
  | .dimensionMismatch => 0x04#8
  | .addrRange => 0x05#8
  | .overlap => 0x06#8

/-- `DONE_P`, bit 0 of `IRQ_STATUS` and of `IRQ_EN` (10_state.md R32, R33). -/
def donePending : BitVec 3 := 0b001#3

/-- `ERR_P`, bit 1 (10_state.md R32, R33). -/
def errPending : BitVec 3 := 0b010#3

/-- `OVR_P`, bit 2 (10_state.md R32, R33). -/
def ovrPending : BitVec 3 := 0b100#3

/-- Sets a pending bit, whatever `IRQ_EN` holds; one already set stays set (60_exceptions.md R235, R241). -/
def State.pend (s : State) (bit : BitVec 3) : State := { s with irqStatus := s.irqStatus ||| bit }

/-- The host's acknowledgement, the block's only return from an event: `IRQ_STATUS <- IRQ_STATUS AND NOT v[2:0]`
(10_state.md R33, 60_exceptions.md R241). -/
def State.acknowledge (s : State) (v : Word) : State := { s with irqStatus := s.irqStatus &&& ~~~(v.extractLsb' 0 3) }

/-- `STATUS.BUSY`: an accepted command has not completed (10_state.md R30, R42). -/
def State.busy (s : State) : Bool := s.lc.isSome

/-- `STATUS.ERR`, `(x[ERR_CAUSE].CAUSE != 0)` (10_state.md R30). -/
def State.err (s : State) : Bool := s.errCause.code != 0

/-- The `STATUS` word: `SEQ_VALID` at bit 2, `ERR` at bit 1, `BUSY` at bit 0, the rest 0 (10_state.md R30). -/
def State.statusWord (s : State) : Word :=
  0#29 ++ BitVec.ofBool s.seqValid ++ BitVec.ofBool s.err ++ BitVec.ofBool s.busy

/-- The interrupt output, level-sensitive and active high: some source is pending and enabled (10_state.md R44,
60_exceptions.md R236, R238). -/
def State.irq (s : State) : Bool := (s.irqStatus &&& s.irqEn) != 0

end Sys2Proof.Machine
end

