-- ==== Sys2Proof/Machine/Memory.lean ====
section
/-! DEFINITION. FMEM (10_state.md R40): reading and writing bytes of a sparse memory in one canonical form, addresses
strictly rising and no entry equal to what an unlisted address reads as, so that equal memories are equal data. -/

namespace Sys2Proof.Machine

/-- What a byte that nothing has written reads as. DESIGN CHOICE, unsafe: the spec says arbitrary but stable
(10_state.md R41); see log entry 1 and `State.powerUp`. -/
def Memory.unlisted : Byte := 0

/-- `MemRead(a, 1)` (00_scope.md R11). -/
def Memory.read : Memory → Nat → Byte
  | [], _ => Memory.unlisted
  | (x, y) :: m, a => if x = a then y else Memory.read m a

/-- `MemWrite(a, 1, b)` (00_scope.md R11), keeping the canonical form. -/
def Memory.write : Memory → Nat → Byte → Memory
  | [], a, b => if b = Memory.unlisted then [] else [(a, b)]
  | (x, y) :: m, a, b =>
    if a < x then
      if b = Memory.unlisted then (x, y) :: m else (a, b) :: (x, y) :: m
    else if a = x then
      if b = Memory.unlisted then m else (a, b) :: m
    else (x, y) :: Memory.write m a b

/-- `MemRead(a, n)` (00_scope.md R11). -/
def Memory.readBytes (m : Memory) (a n : Nat) : List Byte :=
  (List.range n).map fun i => Memory.read m (a + i)

/-- `MemWrite(a, n, s)` for a sequence `s` of `n` bytes (00_scope.md R11). -/
def Memory.writeBytes (m : Memory) (a : Nat) : List Byte → Memory
  | [] => m
  | b :: bs => Memory.writeBytes (Memory.write m a b) (a + 1) bs

/-- The canonical form: every address above `lo`, strictly rising, no entry equal to an unlisted byte. -/
def Memory.wfFrom : Nat → Memory → Bool
  | _, [] => true
  | lo, (x, y) :: m => decide (lo ≤ x) && decide (y ≠ Memory.unlisted) && Memory.wfFrom (x + 1) m

/-- The canonical form of a memory. -/
def Memory.wf (m : Memory) : Bool := Memory.wfFrom 0 m

/-- Every listed byte exists: its address is below `size` (20_memory.md R60). -/
def Memory.within (m : Memory) (size : Nat) : Bool := m.all fun c => decide (c.1 < size)

end Sys2Proof.Machine
end

