-- ==== Sys2Proof/Machine/Operands.lean ====
section
/-! DEFINITION. The operands of a command: frame sizes, expected lengths and FMEM ranges computed from a (candidate or
latched) `LC`, all on exact integers (30_encoding.md R91, R95; 40_command_execution.md R112, R113; 20_memory.md R66). -/

namespace Sys2Proof.Machine

/-- A byte range `[base, base + len)` of FMEM (20_memory.md R66). -/
structure Span where
  base : Nat
  len : Nat
  deriving DecidableEq, Repr

/-- Byte `a` lies in the range. -/
def Span.covers (r : Span) (a : Nat) : Bool := decide (r.base ≤ a) && decide (a < r.base + r.len)

/-- The range lies inside FMEM: `b + l <= FMEM_SIZE` (60_exceptions.md R232 `ADDR_RANGE`). -/
def Span.fits (r : Span) (size : Nat) : Bool := decide (r.base + r.len ≤ size)

/-- `overlaps((a, la), (b, lb))` of 40_command_execution.md R111. -/
def Span.overlaps (r t : Span) : Bool := decide (r.base < t.base + t.len) && decide (t.base < r.base + r.len)

/-- `N`, the pixel count of a frame (00_scope.md R11). -/
def Latched.pixels (c : Latched) : Nat := c.w.toNat * c.h.toNat

/-- `Q = N div 4`, the sample count of a quarter-resolution plane (00_scope.md R11). -/
def Latched.quarter (c : Latched) : Nat := c.pixels / 4

/-- The frame commands, those that read and write FMEM (60_exceptions.md R232). -/
def isFrameCommand : Instr → Bool
  | .nop => false
  | .csc => true
  | .sub => true
  | .pack => true
  | .delta => true
  | .ups => true
  | .dseq => false

/-- `expLen(op, N)` of 40_command_execution.md R112; `NOP` and `DSEQ` declare no source (30_encoding.md R95). -/
def expLen (op : Instr) (n : Nat) : Nat :=
  match op with
  | .nop => 0
  | .csc => 3 * n
  | .sub => 3 * n
  | .pack => 3 * n
  | .delta => 3 * n / 2
  | .ups => 3 * n / 2
  | .dseq => 0

/-- `dstRange(op)` of 40_command_execution.md R113; none for `NOP` and `DSEQ` (30_encoding.md R95). -/
def Latched.dstRange (c : Latched) : Option Span :=
  match c.op with
  | .nop => none
  | .csc => some ⟨c.dst.toNat, 3 * c.pixels⟩
  | .sub => some ⟨c.dst.toNat, 2 * c.quarter⟩
  | .pack => some ⟨c.dst.toNat, 3 * c.pixels / 2⟩
  | .delta => some ⟨c.dst.toNat, 3 * c.pixels / 2⟩
  | .ups => some ⟨c.dst.toNat, 3 * c.pixels⟩
  | .dseq => none

/-- The previous source frame, while the delta sequence has one (44_temporal_delta.md R204). -/
def State.prevRanges (s : State) : List Span :=
  if s.seqValid then [⟨s.prevAddr.toNat, s.prevLen.toNat⟩] else []

/-- `srcRanges(op)` of 40_command_execution.md R113; `DELTA` reads the sequence state live (R116). -/
def State.srcRanges (s : State) (c : Latched) : List Span :=
  match c.op with
  | .nop => []
  | .csc => [⟨c.src.toNat, 3 * c.pixels⟩]
  | .sub => [⟨c.src.toNat, 3 * c.pixels⟩]
  | .pack => [⟨c.src.toNat, 3 * c.pixels⟩, ⟨c.aux.toNat, 2 * c.quarter⟩]
  | .delta => ⟨c.src.toNat, 3 * c.pixels / 2⟩ :: s.prevRanges
  | .ups => [⟨c.src.toNat, 3 * c.pixels / 2⟩]
  | .dseq => []

/-- The record `LC` would take if `op` were accepted now (40_command_execution.md R110). -/
def State.latch (s : State) (op : Instr) : Latched :=
  { op := op, w := s.width, h := s.height, src := s.srcAddr, len := s.srcLen, aux := s.auxAddr, dst := s.dstAddr }

/-- Byte `a` lies in the destination range of the command in flight (20_memory.md R71). -/
def State.inFlightDst (s : State) (a : Nat) : Bool :=
  match s.lc with
  | none => false
  | some c => c.dstRange.toList.any fun r => r.covers a

/-- Byte `a` lies in a source or the destination range of the command in flight (20_memory.md R72). -/
def State.inFlightBytes (s : State) (a : Nat) : Bool :=
  match s.lc with
  | none => false
  | some c => (s.srcRanges c ++ c.dstRange.toList).any fun r => r.covers a

/-- Byte `i` of a byte sequence. Every use is below the sequence's length, so the default is never taken. -/
def byteAt (bs : List Byte) (i : Nat) : Byte := bs.getD i 0

end Sys2Proof.Machine
end

