-- ==== Sys2Proof/Machine/Ops.lean ====
section
/-! DEFINITION. The shared operations: what a completing command does to FMEM and to the lifecycle (40_command_execution.md
R114, R115), validation and acceptance of a command word (R110, R111), the rejection that is this block's only exception
(60_exceptions.md R230, R240), and reset (70_reset_and_hazards.md R270, R271). -/

namespace Sys2Proof.Machine

/-- What a step or a meaning answers. -/
abbrev Result := Host.Outcome State Fault Refusal

/-! ### Completion -/

/-- Gives the latched command to `k`; the engine's step is enabled only while one is held (40_command_execution.md R114). -/
def State.withLatched (s : State) (k : Latched → Result) : Result :=
  match s.lc with
  | some c => k c
  | none => .fault .noCommandInFlight

/-- `MemRead(a, n)` of a completing command (00_scope.md R11): `k` gets the bytes as they stand. -/
def State.withBytes (s : State) (a n : Nat) (k : List Byte → Result) : Result :=
  if a + n ≤ s.params.fmemSize then k (s.mem.readBytes a n) else .fault .addressBeyondFmem

/-- FMEM with the byte sequence `out` written from address `a` on (00_scope.md R11). -/
def State.storeBytes (s : State) (a : Nat) (out : List Byte) : State := { s with mem := s.mem.writeBytes a out }

/-- `MemWrite(a, n, out)` of a completing command (00_scope.md R11), every byte of `out` computed before
(40_command_execution.md R115). -/
def State.withStored (s : State) (a : Nat) (out : List Byte) (k : State → Result) : Result :=
  if a + out.length ≤ s.params.fmemSize then k (s.storeBytes a out) else .fault .addressBeyondFmem

/-- The end of every completion step: `BUSY <- 0` (so `LC` is gone) and `DONE_P <- 1` (40_command_execution.md R114). -/
def State.complete (s : State) : State := { s with lc := none }.pend donePending

/-! ### Acceptance -/

/-- The part of `validate` after decoding, for the operands `c` would latch: the first cause in the order of
40_command_execution.md R111 (60_exceptions.md R233). -/
def State.validateLatched (s : State) (c : Latched) : Cause :=
  if isFrameCommand c.op = false then .none
  else if c.w.toNat = 0 ∨ c.h.toNat = 0 then .zeroDimension
  else if c.w.toNat % 2 ≠ 0 ∨ c.h.toNat % 2 ≠ 0 then .oddDimension
  else if c.len.toNat ≠ expLen c.op c.pixels then .dimensionMismatch
  else if c.op = .delta ∧ s.seqValid = true ∧ s.prevLen ≠ c.len then .dimensionMismatch
  else if (s.srcRanges c ++ c.dstRange.toList).all (fun r => r.fits s.params.fmemSize) = false then .addrRange
  else if (s.srcRanges c).any (fun r => c.dstRange.toList.any fun d => r.overlaps d) = true then .overlap
  else .none

/-- `validate(v)` of 40_command_execution.md R111. -/
def State.validate (s : State) (v : Word) : Cause :=
  match decode v with
  | .error _ => .illegalCmd
  | .ok op => s.validateLatched (s.latch op)

/-- The block's one exception: the command is rejected with a cause, and nothing else changes (40_command_execution.md R110,
60_exceptions.md R230). There is no trap entry (R240). -/
def State.reject (s : State) (e : Cause) : State := { s with errCause := e }.pend errPending

/-- Acceptance: the operands are latched and the block goes busy (40_command_execution.md R110). -/
def State.accept (s : State) (op : Instr) : State := { s with lc := some (s.latch op), errCause := .none }

/-- A host write of `v` to `CMD` (40_command_execution.md R110, R117). -/
def State.presentCommand (s : State) (v : Word) : State :=
  if s.busy then s.pend ovrPending
  else
    match decode v with
    | .error _ => s.reject .illegalCmd
    | .ok op =>
      match s.validate v with
      | .none => s.accept op
      | e => s.reject e

/-! ### The delta sequence -/

/-- The sequence state update that ends every completed `DELTA` (44_temporal_delta.md R203). -/
def State.sequenceUpdate (s : State) (c : Latched) : State :=
  { s with seqValid := true, prevAddr := c.src, prevLen := c.len, deltaCount := s.deltaCount + 1 }

/-- The cleared sequence state (44_temporal_delta.md R205). -/
def State.sequenceClear (s : State) : State :=
  { s with seqValid := false, prevAddr := 0, prevLen := 0, deltaCount := 0 }

/-! ### Free values and reset -/

/-- `n` free bytes, the ones drawn from number `k` on (93_implementation_defined.md U2, U4; log entry 5). -/
def freeBytes (k n : Nat) : List Byte := (List.range n).map fun i => Config.freeByte (k + i)

/-- The bytes of the destination range of a command in flight become free values (70_reset_and_hazards.md R271). -/
def State.scrambleDst (s : State) : State :=
  match s.lc with
  | none => s
  | some c =>
    match c.dstRange with
    | none => s
    | some r => { s.storeBytes r.base (freeBytes s.draws r.len) with draws := s.draws + r.len }

/-- The reset input (70_reset_and_hazards.md R270): every stored register field takes its reset value, the command in flight
is discarded, FMEM keeps its contents but for its destination bytes (R271). -/
def State.resetInput (s : State) : State :=
  { State.powerUp s.params s.scrambleDst.mem with
    inputs := s.inputs, lastRead := s.lastRead, draws := s.scrambleDst.draws }

end Sys2Proof.Machine
end

