-- ==== Sys2Proof/Machine/Packer.lean ====
section
/-! DEFINITION. The packed layout and `PACK` (43_planar_packer.md, 20_memory.md R81). -/

namespace Sys2Proof.Machine

/-- `pack(Yp, Uq, Vq) = Yp || Uq || Vq` (43_planar_packer.md R180). -/
def packPlanes (y u v : List Byte) : List Byte := y ++ u ++ v

/-- The three planes of a packed frame. -/
structure Planes where
  y : List Byte
  u : List Byte
  v : List Byte
  deriving DecidableEq, Repr

/-- `slice(F, N)`: bytes `[0, N)`, `[N, N+Q)`, `[N+Q, end)` with `Q = N div 4` (43_planar_packer.md R181). -/
def slicePlanes (f : List Byte) (n : Nat) : Planes :=
  { y := f.take n, u := (f.drop n).take (n / 4), v := f.drop (n + n / 4) }

/-- `PACK` (43_planar_packer.md R182). -/
def execPack (s : State) : Result :=
  s.withLatched fun c =>
  s.withBytes c.src.toNat c.pixels fun y =>
  s.withBytes c.aux.toNat c.quarter fun u =>
  s.withBytes (c.aux.toNat + c.quarter) c.quarter fun v =>
  s.withStored c.dst.toNat (packPlanes y u v) fun t =>
  .next t.complete

end Sys2Proof.Machine
end

