-- ==== Sys2Proof/Machine/Chroma.lean ====
section
/-! DEFINITION. The plane functions, `SUB` and `UPS` (42_chroma.md). A plane is a byte sequence in row-major raster order:
the sample at row `r`, column `c` is byte `r * W + c` (20_memory.md R78). -/

namespace Sys2Proof.Machine

/-- `t div 4`, the truncated mean of four samples (42_chroma.md R150). -/
def mean4 (a b c d : Byte) : Byte := BitVec.ofNat 8 ((a.toNat + b.toNat + c.toNat + d.toNat) / 4)

/-- One cell of `down(P, W, H)`: the mean of the 2×2 block of rows `2i`, `2i+1` and columns `2j`, `2j+1`
(42_chroma.md R150). -/
def downCell (p : List Byte) (w i j : Nat) : Byte :=
  mean4 (byteAt p (2 * i * w + 2 * j)) (byteAt p (2 * i * w + 2 * j + 1))
    (byteAt p ((2 * i + 1) * w + 2 * j)) (byteAt p ((2 * i + 1) * w + 2 * j + 1))

/-- `down(P, W, H)`, in the raster order of the half-size plane (42_chroma.md R150). -/
def downPlane (p : List Byte) (w h : Nat) : List Byte :=
  (List.range (h / 2 * (w / 2))).map fun x => downCell p w (x / (w / 2)) (x % (w / 2))

/-- `up(D, W, H)`: every cell is read back for the four positions it covers (42_chroma.md R151). -/
def upPlane (d : List Byte) (w h : Nat) : List Byte :=
  (List.range (w * h)).map fun x => byteAt d (x / w / 2 * (w / 2) + x % w / 2)

/-- `SUB` (42_chroma.md R152): the Y plane of the source is not read. -/
def execSub (s : State) : Result :=
  s.withLatched fun c =>
  s.withBytes (c.src.toNat + c.pixels) c.pixels fun u =>
  s.withBytes (c.src.toNat + 2 * c.pixels) c.pixels fun v =>
  s.withStored c.dst.toNat (downPlane u c.w.toNat c.h.toNat ++ downPlane v c.w.toNat c.h.toNat) fun t =>
  .next t.complete

/-- `UPS` (42_chroma.md R154). -/
def execUps (s : State) : Result :=
  s.withLatched fun c =>
  s.withBytes c.src.toNat (3 * c.pixels / 2) fun f =>
  let p := slicePlanes f c.pixels
  s.withStored c.dst.toNat (p.y ++ upPlane p.u c.w.toNat c.h.toNat ++ upPlane p.v c.w.toNat c.h.toNat) fun t =>
  .next t.complete

end Sys2Proof.Machine
end

