-- ==== Sys2Proof/Machine/Color.lean ====
section
/-! DEFINITION. The colour transform and `CSC` (41_color_transform.md). -/

namespace Sys2Proof.Machine

/-- `tdiv(a, b)`, division truncated toward zero, as 00_scope.md R10 writes it. -/
def tdiv (a b : Int) : Int := a.sign * ((a.natAbs / b.natAbs : Nat) : Int)

/-- `low8(v) = v mod 256` (00_scope.md R10). -/
def low8 (v : Int) : Byte := BitVec.ofInt 8 v

/-- `S_ch`, the exact sum of one output channel (41_color_transform.md R132). -/
def channelSum (k : CoeffRow) (r g b : Byte) : Int :=
  k.kR * (r.toNat : Int) + k.kG * (g.toNat : Int) + k.kB * (b.toNat : Int) + k.kOff

/-- `out_ch = low8(tdiv(S_ch, 10000))`: truncated, wrapped, never clamped (41_color_transform.md R132, R135). -/
def channelOut (k : CoeffRow) (r g b : Byte) : Byte := low8 (tdiv (channelSum k r g b) 10000)

/-- One output plane of `N` samples: pixel `p` of the raw frame is bytes `3p`, `3p+1`, `3p+2` (20_memory.md R79). -/
def channelPlane (k : CoeffRow) (raw : List Byte) (n : Nat) : List Byte :=
  (List.range n).map fun p => channelOut k (byteAt raw (3 * p)) (byteAt raw (3 * p + 1)) (byteAt raw (3 * p + 2))

/-- The planar 4:4:4 frame of a raw frame: Y plane, then U, then V (20_memory.md R80, 41_color_transform.md R134). -/
def cscFrame (m : CscMatrix) (raw : List Byte) (n : Nat) : List Byte :=
  channelPlane m.y raw n ++ channelPlane m.u raw n ++ channelPlane m.v raw n

/-- `CSC` (41_color_transform.md R134). -/
def execCsc (s : State) : Result :=
  s.withLatched fun c =>
  s.withBytes c.src.toNat (3 * c.pixels) fun raw =>
  s.withStored c.dst.toNat (cscFrame s.params.cscK raw c.pixels) fun t =>
  .next t.complete

end Sys2Proof.Machine
end

