-- ==== Sys2Proof/Machine/Control.lean ====
section
/-! DEFINITION. `NOP` (40_command_execution.md R120). -/

namespace Sys2Proof.Machine

/-- `NOP`: `exec(NOP) = skip`, then the completion (40_command_execution.md R114, R120). -/
def execNop (s : State) : Result :=
  s.withLatched fun _ => .next s.complete

end Sys2Proof.Machine
end

