-- ==== Sys2Proof/Machine/Delta.lean ====
section
/-! DEFINITION. The temporal delta encoder: `DELTA` and `DSEQ` (44_temporal_delta.md). -/

namespace Sys2Proof.Machine

/-- `out[j] = (cur[j] - prev[j]) mod 256` for two frames of one length (44_temporal_delta.md R201, R202). -/
def deltaFrame (cur prev : List Byte) : List Byte := List.zipWith (fun a b => a - b) cur prev

/-- `DELTA` (44_temporal_delta.md R201): the anchor while `SEQ_VALID = 0`, else the difference against the bytes that now
stand at `PREV_ADDR` (R204), then the sequence state update (R203). -/
def execDelta (s : State) : Result :=
  s.withLatched fun c =>
  s.withBytes c.src.toNat c.len.toNat fun cur =>
  if s.seqValid then
    s.withBytes s.prevAddr.toNat c.len.toNat fun prev =>
    s.withStored c.dst.toNat (deltaFrame cur prev) fun t =>
    .next (t.sequenceUpdate c).complete
  else
    s.withStored c.dst.toNat cur fun t =>
    .next (t.sequenceUpdate c).complete

/-- `DSEQ` (44_temporal_delta.md R205). -/
def execDseq (s : State) : Result :=
  s.withLatched fun _ => .next s.sequenceClear.complete

end Sys2Proof.Machine
end

