-- ==== Sys2Proof/Machine/Dispatch.lean ====
section
/-! DEFINITION. One arm per command: `exec op s` is the engine's completion step (40_command_execution.md R114) of a command
whose `LC.OPC` is `op`. -/

namespace Sys2Proof.Machine

/-- The completion step of each command. -/
def exec (i : Instr) (s : State) : Host.Outcome State Fault Refusal :=
  match i with
  | .nop => Sys2Proof.Machine.execNop s
  | .csc => Sys2Proof.Machine.execCsc s
  | .sub => Sys2Proof.Machine.execSub s
  | .pack => Sys2Proof.Machine.execPack s
  | .delta => Sys2Proof.Machine.execDelta s
  | .ups => Sys2Proof.Machine.execUps s
  | .dseq => Sys2Proof.Machine.execDseq s

end Sys2Proof.Machine
end

