-- ==== Sys2Proof/Machine/Host.lean ====
section
/-! DEFINITION. The host's accesses: the register map (10_state.md R20 to R38), the aperture (20_memory.md R61, R62), access
sizes and byte order (R63, R64), and accesses while a command runs (R71, R72). -/

namespace Sys2Proof.Machine

/-- The sixteen defined registers (10_state.md R20). -/
inductive Reg where
  | id
  | fmemSize
  | width
  | height
  | srcAddr
  | srcLen
  | auxAddr
  | dstAddr
  | cmd
  | status
  | errCause
  | irqEn
  | irqStatus
  | prevAddr
  | prevLen
  | deltaCount
  deriving DecidableEq, Repr

/-- The offset of each register (10_state.md R20). -/
def Reg.offset : Reg → BitVec 25
  | .id => 0x00#25
  | .fmemSize => 0x04#25
  | .width => 0x08#25
  | .height => 0x0C#25
  | .srcAddr => 0x10#25
  | .srcLen => 0x14#25
  | .auxAddr => 0x18#25
  | .dstAddr => 0x1C#25
  | .cmd => 0x20#25
  | .status => 0x24#25
  | .errCause => 0x28#25
  | .irqEn => 0x2C#25
  | .irqStatus => 0x30#25
  | .prevAddr => 0x34#25
  | .prevLen => 0x38#25
  | .deltaCount => 0x3C#25

/-- The register at an offset of the register space, none for a reserved slot or an offset inside a slot (10_state.md R20,
R37; 20_memory.md R63). -/
def Reg.atOffset (o : Nat) : Option Reg :=
  match o with
  | 0x00 => some .id
  | 0x04 => some .fmemSize
  | 0x08 => some .width
  | 0x0C => some .height
  | 0x10 => some .srcAddr
  | 0x14 => some .srcLen
  | 0x18 => some .auxAddr
  | 0x1C => some .dstAddr
  | 0x20 => some .cmd
  | 0x24 => some .status
  | 0x28 => some .errCause
  | 0x2C => some .irqEn
  | 0x30 => some .irqStatus
  | 0x34 => some .prevAddr
  | 0x38 => some .prevLen
  | 0x3C => some .deltaCount
  | _ => none

/-- `ID`, constant (10_state.md R21). -/
def idWord : Word := 0x52590100#32

/-- The value a register reads as; reserved fields read 0 and no read has a side effect (10_state.md R21 to R38). -/
def State.readReg (s : State) : Reg → Word
  | .id => idWord
  | .fmemSize => BitVec.ofNat 32 s.params.fmemSize
  | .width => s.width.setWidth 32
  | .height => s.height.setWidth 32
  | .srcAddr => s.srcAddr
  | .srcLen => s.srcLen
  | .auxAddr => s.auxAddr
  | .dstAddr => s.dstAddr
  | .cmd => 0
  | .status => s.statusWord
  | .errCause => s.errCause.code.setWidth 32
  | .irqEn => s.irqEn.setWidth 32
  | .irqStatus => s.irqStatus.setWidth 32
  | .prevAddr => s.prevAddr
  | .prevLen => s.prevLen
  | .deltaCount => s.deltaCount

/-- A host word write to a register: read-only registers and reserved fields ignore it (10_state.md R20 to R36). -/
def State.writeReg (s : State) (r : Reg) (v : Word) : State :=
  match r with
  | .id => s
  | .fmemSize => s
  | .width => { s with width := v.extractLsb' 0 16 }
  | .height => { s with height := v.extractLsb' 0 16 }
  | .srcAddr => { s with srcAddr := v }
  | .srcLen => { s with srcLen := v }
  | .auxAddr => { s with auxAddr := v }
  | .dstAddr => { s with dstAddr := v }
  | .cmd => s.presentCommand v
  | .status => s
  | .errCause => s
  | .irqEn => { s with irqEn := v.extractLsb' 0 3 }
  | .irqStatus => s.acknowledge v
  | .prevAddr => s
  | .prevLen => s
  | .deltaCount => s

/-- How many bytes an access moves (20_memory.md R63). -/
def AccessSize.bytes : AccessSize → Nat
  | .b1 => 1
  | .b2 => 2
  | .b4 => 4

/-- The aperture offset of FMEM byte 0 (20_memory.md R61). -/
def fmemWindow : Nat := 0x01000000

/-- What a host access reaches (20_memory.md R61 to R63). -/
inductive Target where
  /-- A defined register, by an aligned word access. -/
  | register (r : Reg)
  /-- `n` FMEM bytes from address `a`, naturally aligned and wholly inside the window. -/
  | fmem (a n : Nat)
  /-- Anything else: ignored on write, 0 on read, no error. -/
  | nothing
  deriving DecidableEq, Repr

/-- Where the access `(offset, size)` goes (20_memory.md R61 to R63; 10_state.md R37). -/
def State.target (s : State) (offset : BitVec 25) (size : AccessSize) : Target :=
  if offset.toNat < fmemWindow then
    match size with
    | .b4 =>
      match Reg.atOffset offset.toNat with
      | some r => .register r
      | none => .nothing
    | .b1 => .nothing
    | .b2 => .nothing
  else if offset.toNat % size.bytes = 0 ∧ offset.toNat - fmemWindow + size.bytes ≤ s.params.fmemSize then
    .fmem (offset.toNat - fmemWindow) size.bytes
  else .nothing

/-- `LE(bytes)`, the little-endian value of at most four bytes (00_scope.md R11, 20_memory.md R64). -/
def leValue : List Byte → Nat
  | [] => 0
  | b :: bs => b.toNat + 256 * leValue bs

/-- The low `n` bytes of a word, `v[8i+7:8i]` for `i < n` (20_memory.md R64). -/
def leBytes (v : Word) (n : Nat) : List Byte := (List.range n).map fun i => v.extractLsb' (8 * i) 8

/-- FMEM byte `a` as a host read sees it, with free value number `k` in hand: unspecified inside the destination range of the
command in flight, current elsewhere (20_memory.md R71; log entry 10). -/
def State.hostByte (s : State) (k a : Nat) : Byte := if s.inFlightDst a then Config.freeByte k else s.mem.read a

/-- The `n` bytes a host read of FMEM at `a` returns (20_memory.md R64, R71). -/
def State.hostBytes (s : State) (a n : Nat) : List Byte := (List.range n).map fun i => s.hostByte (s.draws + i) (a + i)

/-- How many free values a host read of `n` bytes at `a` uses up: `n` numbers if any of its bytes is a destination byte of
the command in flight, so that every such read gets fresh ones (93_implementation_defined.md U2). -/
def State.drawsFor (s : State) (a n : Nat) : Nat := if (List.range n).any (fun i => s.inFlightDst (a + i)) then n else 0

/-- A host read (20_memory.md R62 to R64, R71; 10_state.md R38): it changes nothing of the block. -/
def State.hostRead (s : State) (offset : BitVec 25) (size : AccessSize) : State :=
  match s.target offset size with
  | .register r => { s with lastRead := some (s.readReg r) }
  | .fmem a n => { s with lastRead := some (BitVec.ofNat 32 (leValue (s.hostBytes a n))), draws := s.draws + s.drawsFor a n }
  | .nothing => { s with lastRead := some 0 }

/-- A host write of `n` bytes at `a` touches a source or destination byte of the command in flight (20_memory.md R72). -/
def State.underCommand (s : State) (a n : Nat) : Bool := (List.range n).any fun i => s.inFlightBytes (a + i)

/-- A host write (20_memory.md R62 to R64, R72; 10_state.md R20). -/
def State.hostWrite (s : State) (offset : BitVec 25) (size : AccessSize) (data : Word) : Result :=
  match s.target offset size with
  | .register r => .next (s.writeReg r data)
  | .fmem a n =>
    if s.underCommand a n then .fault .hostWriteUnderCommand
    else .next (s.storeBytes a (leBytes data n))
  | .nothing => .next s

/-- The aperture offset of a system address, none outside the aperture `[HOST_BASE, HOST_BASE + 0x0200_0000)`
(20_memory.md R61). -/
def apertureOffset (p : Params) (systemAddress : Nat) : Option (BitVec 25) :=
  if p.hostBase ≤ systemAddress ∧ systemAddress < p.hostBase + 0x02000000 then
    some (BitVec.ofNat 25 (systemAddress - p.hostBase))
  else none

end Sys2Proof.Machine
end

