-- ==== Sys2Proof/Machine/Engine.lean ====
section
/-! DEFINITION. What one input does: the engine's turn, a host access or a reset, each one atomic step (00_scope.md R12,
20_memory.md R69). -/

namespace Sys2Proof.Machine

/-- The engine's turn: it performs the command in flight, and does nothing while idle (40_command_execution.md R114; 20_memory.md
R77: the block "never acts on its own except to complete an accepted command"). -/
def State.engineTurn (s : State) : Result :=
  match s.lc with
  | some c => exec c.op s
  | none => .next s

/-- One step, driven by one input (00_scope.md R12). -/
def State.runInput (s : State) : Input → Result
  | .read offset size => .next (s.hostRead offset size)
  | .write offset size data => s.hostWrite offset size data
  | .engine => s.engineTurn
  | .reset => .next s.resetInput

/-- The next input, or the engine's turn when none is left: an accepted command completes eventually
(40_command_execution.md R119; log entry 4). -/
def State.advance (s : State) : Result :=
  match s.inputs with
  | [] => s.engineTurn
  | i :: rest => State.runInput { s with inputs := rest } i

/-- `s` with the command of a table word latched and the engine next in turn, so that the next step performs it; a word that
decodes to nothing is presented to `CMD` instead, idle, where the next step rejects it (log entry 7). -/
def State.loadWord (s : State) (nbits w : Nat) : State :=
  match decodeTableWord nbits w with
  | some i =>
    { s with
      lc := some (s.latch i)
      inputs := match s.inputs with
        | [] => []
        | x :: xs => .engine :: x :: xs }
  | none =>
    { s with
      lc := none
      inputs := .write Reg.cmd.offset .b4 (BitVec.ofNat 32 (w % 2 ^ nbits)) :: s.inputs }

end Sys2Proof.Machine
end

