-- ==== Sys2Proof/Machine/Step.lean ====
section
/-! DEFINITION. The step of the block (00_scope.md R12) and how the host's check of the opcode table places an instruction. -/

namespace Sys2Proof.Machine

/-- One step. A choice of the parameters outside 00_scope.md R6 is refused (93_implementation_defined.md U8). -/
def step (s : State) : Host.Outcome State Fault Refusal :=
  if s.params.legal then s.advance else .refused .illegalParameters

/-- `s` with the instruction of a table word where the next step finds it (log entry 7). -/
def State.withFetchWord (s : State) (nbits w : Nat) : State := s.loadWord nbits w

end Sys2Proof.Machine
end

