-- ==== Sys2Proof/Safety.lean ====
section
/-! DEFINITION. What every state a run reaches satisfies (`State.Inv`), and the host discipline under which no step faults
(`State.respects`, 70_reset_and_hazards.md R275). -/

namespace Sys2Proof.Machine

/-- The invariant of the block. Each field is a promise of the spec about reachable states. -/
structure State.Inv (s : State) : Prop where
  /-- The parameters are legal (00_scope.md R6). -/
  params_legal : s.params.legal = true
  /-- FMEM is in canonical form. -/
  mem_wf : s.mem.wf = true
  /-- FMEM has no byte at or above `FMEM_SIZE` (20_memory.md R60). -/
  mem_within : s.mem.within s.params.fmemSize = true
  /-- Outside a delta sequence its registers read 0 (10_state.md R34 to R36, R49; 44_temporal_delta.md R205). -/
  seq_clear : s.seqValid = false → s.prevAddr = 0 ∧ s.prevLen = 0 ∧ s.deltaCount = 0
  /-- Inside one, the previous source frame lies in FMEM (40_command_execution.md R111, 44_temporal_delta.md R203). -/
  prev_fits : s.seqValid = true → s.prevAddr.toNat + s.prevLen.toNat ≤ s.params.fmemSize
  /-- The command in flight still passes the validation it was accepted with (40_command_execution.md R114, R116). -/
  latched_valid : ∀ c, s.lc = some c → s.validateLatched c = .none

/-- The input asks nothing of the block that the spec leaves without an outcome while its command runs: it is no host write
to a source or destination byte of the command in flight (70_reset_and_hazards.md R275). -/
def State.respects (s : State) : Input → Bool
  | .read _ _ => true
  | .write offset size _ =>
    match s.target offset size with
    | .register _ => true
    | .fmem a n => !s.underCommand a n
    | .nothing => true
  | .engine => true
  | .reset => true

end Sys2Proof.Machine
end

