-- ==== Sys2Proof/Certificates/Slice0/Obligations.lean ====
section
/-! DEFINITION. The statements for the provers, each the meaning of numbered rules of spec/. The helpers under
`Sys2Proof.Claims` spell out the spec's own formulas, so that a statement does not repeat the model's text. -/

namespace Sys2Proof.Claims

open Sys2Proof.Machine

/-- `S_ch / 10000` truncated toward zero, modulo 256 (41_color_transform.md R132), with core Lean's `Int.tdiv`. -/
def cscSample (k : CoeffRow) (r g b : Byte) : Int :=
  Int.tdiv (k.kR * (r.toNat : Int) + k.kG * (g.toNat : Int) + k.kB * (b.toNat : Int) + k.kOff) 10000 % 256

/-- The truncated mean of the 2×2 block at rows `2i`, `2i+1` and columns `2j`, `2j+1` of a plane of width `w`
(42_chroma.md R150); `p` reads a sample. -/
def blockMean (p : Nat → Byte) (w i j : Nat) : Nat :=
  ((p (2 * i * w + 2 * j)).toNat + (p (2 * i * w + 2 * j + 1)).toNat
    + (p ((2 * i + 1) * w + 2 * j)).toNat + (p ((2 * i + 1) * w + 2 * j + 1)).toNat) / 4

/-- `N` of the live registers. -/
def frameSize (s : State) : Nat := s.width.toNat * s.height.toNat

/-- The expected `SRC_LEN` of a frame command (30_encoding.md R95). -/
def expectedLength (op : Instr) (n : Nat) : Nat :=
  if op = .delta ∨ op = .ups then 3 * n / 2 else 3 * n

/-- The source ranges of a frame command as (base, length) pairs (40_command_execution.md R113). -/
def sources (s : State) (op : Instr) : List (Nat × Nat) :=
  [(s.srcAddr.toNat, expectedLength op (frameSize s))]
    ++ (if op = .pack then [(s.auxAddr.toNat, 2 * (frameSize s / 4))] else [])
    ++ (if op = .delta ∧ s.seqValid = true then [(s.prevAddr.toNat, s.prevLen.toNat)] else [])

/-- The destination range of a frame command (40_command_execution.md R113). -/
def destination (s : State) (op : Instr) : Nat × Nat :=
  (s.dstAddr.toNat,
    if op = .sub then 2 * (frameSize s / 4)
    else if op = .pack ∨ op = .delta then 3 * frameSize s / 2
    else 3 * frameSize s)

/-- The condition of `ZERO_DIMENSION` (60_exceptions.md R232). -/
def zeroDimension (s : State) : Prop := s.width = 0 ∨ s.height = 0

/-- The condition of `ODD_DIMENSION` (60_exceptions.md R232). -/
def oddDimension (s : State) : Prop := s.width.toNat % 2 = 1 ∨ s.height.toNat % 2 = 1

/-- The condition of `DIMENSION_MISMATCH` (60_exceptions.md R232). -/
def dimensionMismatch (s : State) (op : Instr) : Prop :=
  s.srcLen.toNat ≠ expectedLength op (frameSize s) ∨ (op = .delta ∧ s.seqValid = true ∧ s.srcLen ≠ s.prevLen)

/-- The condition of `ADDR_RANGE` (60_exceptions.md R232). -/
def addrRange (s : State) (op : Instr) : Prop :=
  ∃ r ∈ sources s op ++ [destination s op], s.params.fmemSize < r.1 + r.2

/-- The condition of `OVERLAP`: some byte lies in the destination and in a source (60_exceptions.md R232). -/
def overlap (s : State) (op : Instr) : Prop :=
  ∃ r ∈ sources s op, ∃ a, r.1 ≤ a ∧ a < r.1 + r.2 ∧ (destination s op).1 ≤ a
    ∧ a < (destination s op).1 + (destination s op).2

/-- An access that reaches no register and no FMEM byte (10_state.md R37; 20_memory.md R62, R63). -/
def ignored (s : State) (o n : Nat) : Prop :=
  (o < 0x100 ∧ (n ≠ 4 ∨ o % 4 ≠ 0 ∨ 0x40 ≤ o)) ∨ (0x100 ≤ o ∧ o < 0x01000000)
    ∨ (0x01000000 ≤ o ∧ (o % n ≠ 0 ∨ s.params.fmemSize < o - 0x01000000 + n))

/-- The engine's turn comes next. -/
def engineNext (s : State) : Prop := s.inputs = [] ∨ ∃ rest, s.inputs = .engine :: rest

/-- The frames a delta sequence writes for its source frames: the anchor, then each difference against the source frame
before it (44_temporal_delta.md R200, R202). -/
def codeFrom (prev : List Byte) : List (List Byte) → List (List Byte)
  | [] => []
  | f :: fs => deltaFrame f prev :: codeFrom f fs

/-- The delta sequence of `fs`. -/
def codeFrames : List (List Byte) → List (List Byte)
  | [] => []
  | f :: fs => f :: codeFrom f fs

/-- The reference decoder of 95_test_vectors.md section 5, after the frame `r` it has just rebuilt. -/
def decodeFrom (r : List Byte) : List (List Byte) → List (List Byte)
  | [] => []
  | d :: ds =>
    let r' := List.zipWith (fun (x y : Byte) => BitVec.ofNat 8 ((x.toNat + y.toNat) % 256)) d r
    r' :: decodeFrom r' ds

/-- The reference decoder (95_test_vectors.md section 5). -/
def decodeFrames : List (List Byte) → List (List Byte)
  | [] => []
  | d :: ds => d :: decodeFrom d ds

end Sys2Proof.Claims

open Sys2Proof Sys2Proof.Machine Sys2Proof.Claims

/-! ### Encoding -/

/-- The seven words of 30_encoding.md R92 decode to their mnemonics, and E1 to E3 of 95_test_vectors.md are illegal. -/
def Obligations.SpecWordsDecodeToTheirCommands : Prop :=
  decode 0x00000000#32 = .ok .nop ∧ decode 0x00000001#32 = .ok .csc ∧ decode 0x00000002#32 = .ok .sub
    ∧ decode 0x00000003#32 = .ok .pack ∧ decode 0x00000004#32 = .ok .delta ∧ decode 0x00000005#32 = .ok .ups
    ∧ decode 0x00000006#32 = .ok .dseq ∧ decode 0x00000007#32 = .error .reservedOpcode
    ∧ decode 0x00000101#32 = .error .reservedBits ∧ decode 0xFFFFFFFF#32 = .error .reservedBits

/-- Decoding an encoded well-formed instruction gives it back (30_encoding.md R92, R94). -/
def Obligations.EncodedCommandDecodesBack : Prop :=
  ∀ i : Instr, i.wellFormed = true → decode (encode i) = .ok i

/-- Decoding is total, and of all 2^32 words exactly the seven of 30_encoding.md R92 are commands, each of one mnemonic
(30_encoding.md R94); encoding agrees with it in both directions. -/
def Obligations.EachCommandHasExactlyOneWord : Prop :=
  ∀ (v : Word) (i : Instr),
    (decode v = .ok i ↔ (v, i) ∈ [(0x00000000#32, Instr.nop), (0x00000001#32, .csc), (0x00000002#32, .sub),
      (0x00000003#32, .pack), (0x00000004#32, .delta), (0x00000005#32, .ups), (0x00000006#32, .dseq)])
    ∧ (decode v = .ok i ↔ v = encode i)

/-- A word with `OPC` in 0x07..0xFF or `RSV != 0`: rejected with `ILLEGAL_CMD` and nothing else while idle, dropped like any
other word while busy (30_encoding.md R93). -/
def Obligations.IllegalWordIsRejectedOrDropped : Prop :=
  ∀ (s : State) (v : Word) (rest : List Input),
    s.params.legal = true → v.toNat / 256 ≠ 0 ∨ 0x07 ≤ v.toNat % 256 →
    s.inputs = .write 0x20#25 .b4 v :: rest →
    (s.lc = none →
      step s = .next { s with inputs := rest, errCause := .illegalCmd, irqStatus := s.irqStatus ||| 0b010#3 })
    ∧ (s.lc ≠ none → step s = .next { s with inputs := rest, irqStatus := s.irqStatus ||| 0b100#3 })

/-! ### Steps -/

/-- While a command is in flight, a step that is the engine's turn is `exec` of the latched command
(40_command_execution.md R114); around it the step only takes the turn from the queue. -/
def Obligations.EngineStepPerformsTheLatchedCommand : Prop :=
  ∀ (s : State) (c : Latched), s.params.legal = true → s.lc = some c →
    (s.inputs = [] → step s = exec c.op s)
    ∧ ∀ rest, s.inputs = .engine :: rest → step s = exec c.op { s with inputs := rest }

/-- A table word that decodes to `i`, placed where the next step finds it, is performed by that very step. The placing is the
model's choice (log entry 7). -/
def Obligations.PlacedWordIsPerformedByTheNextStep : Prop :=
  ∀ (s : State) (nbits w : Nat) (i : Instr), s.params.legal = true → decodeTableWord nbits w = some i →
    (s.inputs = [] → step (s.withFetchWord nbits w) = exec i (s.withFetchWord nbits w))
    ∧ (s.inputs ≠ [] →
        step (s.withFetchWord nbits w) = exec i { s.withFetchWord nbits w with inputs := s.inputs })

/-- A command word the block accepts is performed as the command it decodes to, with the operand registers of the moment of
the write: the write and one engine's turn, in a run of two steps (40_command_execution.md R110, R114). -/
def Obligations.AcceptedWordRunsAsDecoded : Prop :=
  ∀ (s : State) (v : Word) (i : Instr), s.params.legal = true → s.lc = none → decode v = .ok i → s.validate v = .none →
    s.inputs = [.write 0x20#25 .b4 v] →
    Host.Core.run core 2 s = exec i { s with
      inputs := []
      errCause := .none
      lc := some ⟨i, s.width, s.height, s.srcAddr, s.srcLen, s.auxAddr, s.dstAddr⟩ }

/-- An idle block does nothing by itself (20_memory.md R77). That an engine's turn while idle is a step that changes nothing
is the model's choice (log entry 4). -/
def Obligations.IdleBlockNeverActsByItself : Prop :=
  ∀ s : State, s.params.legal = true → s.lc = none →
    (s.inputs = [] → step s = .next s)
    ∧ ∀ rest, s.inputs = .engine :: rest → step s = .next { s with inputs := rest }

/-- Parameters outside 00_scope.md R6 are refused (93_implementation_defined.md U8). -/
def Obligations.IllegalFmemSizeIsRefused : Prop :=
  ∀ s : State, s.params.fmemSize = 0 ∨ 2 ^ 24 < s.params.fmemSize → step s = .refused .illegalParameters

/-! ### Results of the seven commands -/

/-- `NOP` completes and changes nothing but `BUSY` and `DONE_P` (40_command_execution.md R114, R120). -/
def Obligations.NopOnlyCompletes : Prop :=
  ∀ (s : State) (c : Latched), s.lc = some c →
    exec .nop s = .next { s with lc := none, irqStatus := s.irqStatus ||| 0b001#3 }

/-- `DSEQ` clears the four sequence fields and changes nothing else but `BUSY` and `DONE_P` (44_temporal_delta.md R205). -/
def Obligations.DseqClearsTheSequence : Prop :=
  ∀ (s : State) (c : Latched), s.lc = some c →
    exec .dseq s = .next { s with
      seqValid := false, prevAddr := 0, prevLen := 0, deltaCount := 0
      lc := none, irqStatus := s.irqStatus ||| 0b001#3 }

/-- `CSC`: every sample of the planar frame is the truncated, wrapped value of R132; every other byte and every register but
`BUSY` and `DONE_P` is unchanged (41_color_transform.md R132, R134, R135). -/
def Obligations.CscWritesThePlanarFrame : Prop :=
  ∀ (s : State) (c : Latched), s.lc = some c → s.mem.wf = true →
    c.src.toNat + 3 * c.pixels ≤ s.params.fmemSize → c.dst.toNat + 3 * c.pixels ≤ s.params.fmemSize →
    ∃ t, exec .csc s = .next t
      ∧ { t with mem := s.mem } = { s with lc := none, irqStatus := s.irqStatus ||| 0b001#3 }
      ∧ (∀ k < c.pixels,
          let r := s.mem.read (c.src.toNat + 3 * k)
          let g := s.mem.read (c.src.toNat + 3 * k + 1)
          let b := s.mem.read (c.src.toNat + 3 * k + 2)
          ((t.mem.read (c.dst.toNat + k)).toNat : Int) = cscSample s.params.cscK.y r g b
          ∧ ((t.mem.read (c.dst.toNat + c.pixels + k)).toNat : Int) = cscSample s.params.cscK.u r g b
          ∧ ((t.mem.read (c.dst.toNat + 2 * c.pixels + k)).toNat : Int) = cscSample s.params.cscK.v r g b)
      ∧ ∀ a, a < c.dst.toNat ∨ c.dst.toNat + 3 * c.pixels ≤ a → t.mem.read a = s.mem.read a

/-- `SUB`: each cell of the two quarter planes is the truncated mean of its 2×2 block; every other byte and every register but
`BUSY` and `DONE_P` is unchanged (42_chroma.md R150, R152). -/
def Obligations.SubWritesTheBlockMeans : Prop :=
  ∀ (s : State) (c : Latched), s.lc = some c → s.mem.wf = true →
    c.w.toNat % 2 = 0 → c.h.toNat % 2 = 0 →
    c.src.toNat + 3 * c.pixels ≤ s.params.fmemSize → c.dst.toNat + 2 * (c.pixels / 4) ≤ s.params.fmemSize →
    ∃ t, exec .sub s = .next t
      ∧ { t with mem := s.mem } = { s with lc := none, irqStatus := s.irqStatus ||| 0b001#3 }
      ∧ (∀ i < c.h.toNat / 2, ∀ j < c.w.toNat / 2,
          (t.mem.read (c.dst.toNat + (i * (c.w.toNat / 2) + j))).toNat
            = blockMean (fun x => s.mem.read (c.src.toNat + c.pixels + x)) c.w.toNat i j
          ∧ (t.mem.read (c.dst.toNat + c.pixels / 4 + (i * (c.w.toNat / 2) + j))).toNat
            = blockMean (fun x => s.mem.read (c.src.toNat + 2 * c.pixels + x)) c.w.toNat i j)
      ∧ ∀ a, a < c.dst.toNat ∨ c.dst.toNat + 2 * (c.pixels / 4) ≤ a → t.mem.read a = s.mem.read a

/-- `UPS`: the Y plane is copied and every chroma cell is read back for the four positions it covers; every other byte and every
register but `BUSY` and `DONE_P` is unchanged (42_chroma.md R151, R154). -/
def Obligations.UpsReplicatesTheChromaCells : Prop :=
  ∀ (s : State) (c : Latched), s.lc = some c → s.mem.wf = true →
    c.w.toNat % 2 = 0 → c.h.toNat % 2 = 0 →
    c.src.toNat + 3 * c.pixels / 2 ≤ s.params.fmemSize → c.dst.toNat + 3 * c.pixels ≤ s.params.fmemSize →
    ∃ t, exec .ups s = .next t
      ∧ { t with mem := s.mem } = { s with lc := none, irqStatus := s.irqStatus ||| 0b001#3 }
      ∧ (∀ k < c.pixels, t.mem.read (c.dst.toNat + k) = s.mem.read (c.src.toNat + k))
      ∧ (∀ r < c.h.toNat, ∀ x < c.w.toNat,
          t.mem.read (c.dst.toNat + c.pixels + (r * c.w.toNat + x))
            = s.mem.read (c.src.toNat + c.pixels + (r / 2 * (c.w.toNat / 2) + x / 2))
          ∧ t.mem.read (c.dst.toNat + 2 * c.pixels + (r * c.w.toNat + x))
            = s.mem.read (c.src.toNat + c.pixels + c.pixels / 4 + (r / 2 * (c.w.toNat / 2) + x / 2)))
      ∧ ∀ a, a < c.dst.toNat ∨ c.dst.toNat + 3 * c.pixels ≤ a → t.mem.read a = s.mem.read a

/-- `PACK`: the Y plane, then the chroma pair's U and V planes, copied byte for byte; every other byte and every register but
`BUSY` and `DONE_P` is unchanged (43_planar_packer.md R180, R182). -/
def Obligations.PackConcatenatesThePlanes : Prop :=
  ∀ (s : State) (c : Latched), s.lc = some c → s.mem.wf = true →
    c.w.toNat % 2 = 0 → c.h.toNat % 2 = 0 →
    c.src.toNat + 3 * c.pixels ≤ s.params.fmemSize → c.aux.toNat + 2 * (c.pixels / 4) ≤ s.params.fmemSize →
    c.dst.toNat + 3 * c.pixels / 2 ≤ s.params.fmemSize →
    ∃ t, exec .pack s = .next t
      ∧ { t with mem := s.mem } = { s with lc := none, irqStatus := s.irqStatus ||| 0b001#3 }
      ∧ (∀ k < c.pixels, t.mem.read (c.dst.toNat + k) = s.mem.read (c.src.toNat + k))
      ∧ (∀ k < c.pixels / 4,
          t.mem.read (c.dst.toNat + c.pixels + k) = s.mem.read (c.aux.toNat + k)
          ∧ t.mem.read (c.dst.toNat + c.pixels + c.pixels / 4 + k) = s.mem.read (c.aux.toNat + c.pixels / 4 + k))
      ∧ ∀ a, a < c.dst.toNat ∨ c.dst.toNat + 3 * c.pixels / 2 ≤ a → t.mem.read a = s.mem.read a

/-- `DELTA` outside a sequence: the anchor is the source frame verbatim, and the sequence starts (44_temporal_delta.md R200, R201,
R203). -/
def Obligations.FirstDeltaStoresTheAnchor : Prop :=
  ∀ (s : State) (c : Latched), s.lc = some c → s.mem.wf = true → s.seqValid = false →
    c.len.toNat = 3 * c.pixels / 2 →
    c.src.toNat + c.len.toNat ≤ s.params.fmemSize → c.dst.toNat + c.len.toNat ≤ s.params.fmemSize →
    ∃ t, exec .delta s = .next t
      ∧ { t with mem := s.mem } = { s with
          lc := none, irqStatus := s.irqStatus ||| 0b001#3
          seqValid := true, prevAddr := c.src, prevLen := c.len, deltaCount := s.deltaCount + 1 }
      ∧ (∀ j < c.len.toNat, t.mem.read (c.dst.toNat + j) = s.mem.read (c.src.toNat + j))
      ∧ ∀ a, a < c.dst.toNat ∨ c.dst.toNat + c.len.toNat ≤ a → t.mem.read a = s.mem.read a

/-- `DELTA` inside a sequence: every byte is the difference modulo 256 from the byte that now stands in the previous source
frame, and the sequence moves on (44_temporal_delta.md R201 to R204). -/
def Obligations.LaterDeltaStoresTheDifference : Prop :=
  ∀ (s : State) (c : Latched), s.lc = some c → s.mem.wf = true → s.seqValid = true →
    c.len.toNat = 3 * c.pixels / 2 → s.prevLen = c.len →
    c.src.toNat + c.len.toNat ≤ s.params.fmemSize → c.dst.toNat + c.len.toNat ≤ s.params.fmemSize →
    s.prevAddr.toNat + s.prevLen.toNat ≤ s.params.fmemSize →
    ∃ t, exec .delta s = .next t
      ∧ { t with mem := s.mem } = { s with
          lc := none, irqStatus := s.irqStatus ||| 0b001#3
          seqValid := true, prevAddr := c.src, prevLen := c.len, deltaCount := s.deltaCount + 1 }
      ∧ (∀ j < c.len.toNat, ((t.mem.read (c.dst.toNat + j)).toNat : Int)
          = (((s.mem.read (c.src.toNat + j)).toNat : Int) - ((s.mem.read (s.prevAddr.toNat + j)).toNat : Int)) % 256)
      ∧ ∀ a, a < c.dst.toNat ∨ c.dst.toNat + c.len.toNat ≤ a → t.mem.read a = s.mem.read a

/-- With the default matrix the sums range over exactly the intervals of 41_color_transform.md R133, the truncated quotient is the
floor, and no output wraps. -/
def Obligations.DefaultMatrixNeverWraps : Prop :=
  (∀ r g b : Byte,
    (0 ≤ channelSum CscMatrix.default.y r g b ∧ channelSum CscMatrix.default.y r g b ≤ 2550000)
    ∧ (5000 ≤ channelSum CscMatrix.default.u r g b ∧ channelSum CscMatrix.default.u r g b ≤ 2424950)
    ∧ (6785 ≤ channelSum CscMatrix.default.v r g b ∧ channelSum CscMatrix.default.v r g b ≤ 2552450)
    ∧ (∀ k ∈ [CscMatrix.default.y, CscMatrix.default.u, CscMatrix.default.v],
        tdiv (channelSum k r g b) 10000 = channelSum k r g b / 10000
        ∧ ((channelOut k r g b).toNat : Int) = channelSum k r g b / 10000)
    ∧ (channelOut CscMatrix.default.u r g b).toNat ≤ 242)
  ∧ channelSum CscMatrix.default.y 0 0 0 = 0 ∧ channelSum CscMatrix.default.y 255 255 255 = 2550000
  ∧ channelSum CscMatrix.default.u 255 255 0 = 5000 ∧ channelSum CscMatrix.default.u 0 0 255 = 2424950
  ∧ channelSum CscMatrix.default.v 0 255 255 = 6785 ∧ channelSum CscMatrix.default.v 255 0 0 = 2552450

/-- Upsampling a subsampled plane gives, at every position, the truncated mean of its block; it gives the plane back exactly
when every 2×2 block is uniform (42_chroma.md R155). -/
def Obligations.UpsamplingReturnsTheBlockMean : Prop :=
  ∀ (p : List Byte) (w h : Nat), w % 2 = 0 → h % 2 = 0 → p.length = w * h →
    (∀ r < h, ∀ x < w,
      (byteAt (upPlane (downPlane p w h) w h) (r * w + x)).toNat = blockMean (byteAt p) w (r / 2) (x / 2))
    ∧ (upPlane (downPlane p w h) w h = p ↔
        ∀ i < h / 2, ∀ j < w / 2,
          byteAt p (2 * i * w + 2 * j + 1) = byteAt p (2 * i * w + 2 * j)
          ∧ byteAt p ((2 * i + 1) * w + 2 * j) = byteAt p (2 * i * w + 2 * j)
          ∧ byteAt p ((2 * i + 1) * w + 2 * j + 1) = byteAt p (2 * i * w + 2 * j))

/-- `slice` and `pack` undo each other on frames of the right lengths (43_planar_packer.md R183). -/
def Obligations.SliceAndPackUndoEachOther : Prop :=
  (∀ (f : List Byte) (n : Nat), n % 4 = 0 → f.length = 3 * n / 2 →
    packPlanes (slicePlanes f n).y (slicePlanes f n).u (slicePlanes f n).v = f)
  ∧ ∀ (y u v : List Byte) (n : Nat), y.length = n → u.length = n / 4 → v.length = n / 4 →
    slicePlanes (packPlanes y u v) n = ⟨y, u, v⟩

/-- The reference decoder rebuilds every source frame of a delta sequence of frames of one length (95_test_vectors.md
section 5). -/
def Obligations.DeltaSequenceDecodesToItsSources : Prop :=
  ∀ (fs : List (List Byte)) (l : Nat), (∀ f ∈ fs, f.length = l) → decodeFrames (codeFrames fs) = fs

/-! ### Acceptance and rejection -/

/-- Validation reports the first cause that applies in the order of 60_exceptions.md R233, and none exactly when no condition of
R232 holds; `NOP` and `DSEQ` are always accepted (40_command_execution.md R111, R120; 44_temporal_delta.md R205). -/
def Obligations.ValidationReportsTheFirstCause : Prop :=
  ∀ (s : State) (v : Word),
    (∀ e, decode v = .error e → s.validate v = .illegalCmd)
    ∧ (∀ op, decode v = .ok op → op = .nop ∨ op = .dseq → s.validate v = .none)
    ∧ ∀ op, decode v = .ok op → op ≠ .nop → op ≠ .dseq →
      (zeroDimension s → s.validate v = .zeroDimension)
      ∧ (¬ zeroDimension s → oddDimension s → s.validate v = .oddDimension)
      ∧ (¬ zeroDimension s → ¬ oddDimension s → dimensionMismatch s op → s.validate v = .dimensionMismatch)
      ∧ (¬ zeroDimension s → ¬ oddDimension s → ¬ dimensionMismatch s op → addrRange s op → s.validate v = .addrRange)
      ∧ (¬ zeroDimension s → ¬ oddDimension s → ¬ dimensionMismatch s op → ¬ addrRange s op → overlap s op →
          s.validate v = .overlap)
      ∧ (¬ zeroDimension s → ¬ oddDimension s → ¬ dimensionMismatch s op → ¬ addrRange s op → ¬ overlap s op →
          s.validate v = .none)

/-- A host write to `CMD`: while busy it only sets `OVR_P`; while idle a word that fails validation changes nothing but
`ERR_CAUSE.CAUSE` and `ERR_P`, and any other is latched with the operand registers of that moment, clears the cause and makes
the block busy (40_command_execution.md R110, R117; 10_state.md R42; 60_exceptions.md R230). -/
def Obligations.CommandWriteIsDroppedRejectedOrAccepted : Prop :=
  ∀ (s : State) (v : Word) (rest : List Input), s.params.legal = true → s.inputs = .write 0x20#25 .b4 v :: rest →
    (s.lc ≠ none → step s = .next { s with inputs := rest, irqStatus := s.irqStatus ||| 0b100#3 })
    ∧ (s.lc = none → s.validate v ≠ .none →
        step s = .next { s with inputs := rest, errCause := s.validate v, irqStatus := s.irqStatus ||| 0b010#3 })
    ∧ (s.lc = none → s.validate v = .none →
        ∃ op, decode v = .ok op ∧ step s = .next { s with
          inputs := rest
          lc := some ⟨op, s.width, s.height, s.srcAddr, s.srcLen, s.auxAddr, s.dstAddr⟩
          errCause := .none })

/-! ### Registers and the interrupt output -/

/-- What every defined register reads as, and that a read changes nothing of the block (10_state.md R20 to R38). -/
def Obligations.RegisterReadsReturnTheirFields : Prop :=
  ∀ (s : State) (offset : BitVec 25) (value : Word) (rest : List Input), s.params.legal = true →
    (offset, value) ∈ [
      (0x00#25, 0x52590100#32), (0x04#25, BitVec.ofNat 32 s.params.fmemSize),
      (0x08#25, BitVec.ofNat 32 s.width.toNat), (0x0C#25, BitVec.ofNat 32 s.height.toNat),
      (0x10#25, s.srcAddr), (0x14#25, s.srcLen), (0x18#25, s.auxAddr), (0x1C#25, s.dstAddr), (0x20#25, 0#32),
      (0x24#25, BitVec.ofNat 32 ((if s.lc.isSome then 1 else 0) + (if s.errCause ≠ .none then 2 else 0)
        + (if s.seqValid then 4 else 0))),
      (0x28#25, match s.errCause with
        | .none => 0#32 | .illegalCmd => 1#32 | .zeroDimension => 2#32 | .oddDimension => 3#32
        | .dimensionMismatch => 4#32 | .addrRange => 5#32 | .overlap => 6#32),
      (0x2C#25, BitVec.ofNat 32 s.irqEn.toNat), (0x30#25, BitVec.ofNat 32 s.irqStatus.toNat),
      (0x34#25, s.prevAddr), (0x38#25, s.prevLen), (0x3C#25, s.deltaCount)] →
    s.inputs = .read offset .b4 :: rest →
    step s = .next { s with inputs := rest, lastRead := some value }

/-- What a host word write to each register but `CMD` stores: the writable fields of the read-write ones, the acknowledged bits
of `IRQ_STATUS`, nothing in the read-only ones (10_state.md R20 to R36). -/
def Obligations.RegisterWritesStoreTheWritableFields : Prop :=
  ∀ (s t : State) (offset : BitVec 25) (v : Word) (rest : List Input), s.params.legal = true →
    (offset, t) ∈ [
      (0x00#25, s), (0x04#25, s), (0x24#25, s), (0x28#25, s), (0x34#25, s), (0x38#25, s), (0x3C#25, s),
      (0x08#25, { s with width := BitVec.ofNat 16 v.toNat }), (0x0C#25, { s with height := BitVec.ofNat 16 v.toNat }),
      (0x10#25, { s with srcAddr := v }), (0x14#25, { s with srcLen := v }),
      (0x18#25, { s with auxAddr := v }), (0x1C#25, { s with dstAddr := v }),
      (0x2C#25, { s with irqEn := BitVec.ofNat 3 v.toNat }),
      (0x30#25, { s with irqStatus := s.irqStatus &&& ~~~(BitVec.ofNat 3 v.toNat) })] →
    s.inputs = .write offset .b4 v :: rest →
    step s = .next { t with inputs := rest }

/-- Every other access is ignored on write and reads 0, with no error: reserved slots and offsets, wrong sizes, misaligned
offsets, accesses beyond FMEM (10_state.md R37; 20_memory.md R62, R63). -/
def Obligations.OtherAccessesAreIgnored : Prop :=
  ∀ (s : State) (offset : BitVec 25) (size : AccessSize) (v : Word) (rest : List Input), s.params.legal = true →
    ignored s offset.toNat size.bytes →
    (s.inputs = .read offset size :: rest → step s = .next { s with inputs := rest, lastRead := some 0 })
    ∧ (s.inputs = .write offset size v :: rest → step s = .next { s with inputs := rest })

/-- The interrupt output (10_state.md R44). -/
def Obligations.IrqIsPendingAndEnabled : Prop :=
  ∀ s : State, s.irq = true ↔ ∃ i < 3, s.irqStatus.getLsbD i = true ∧ s.irqEn.getLsbD i = true

/-- A pending bit is cleared only by a host write of 1 to it or by reset (60_exceptions.md R235). -/
def Obligations.PendingBitsStayUntilAcknowledged : Prop :=
  ∀ (s t : State) (i : Nat), step s = .next t → s.irqStatus.getLsbD i = true → t.irqStatus.getLsbD i = false →
    (∃ rest, s.inputs = .reset :: rest)
    ∨ ∃ v rest, s.inputs = .write 0x30#25 .b4 v :: rest ∧ v.getLsbD i = true

/-- A pending bit is set only by its own event: `DONE_P` by a completion, `ERR_P` by a `CMD` write while idle that validation
turns down, `OVR_P` by a `CMD` write while busy (60_exceptions.md R235). -/
def Obligations.PendingBitsAreSetByTheirEvents : Prop :=
  ∀ (s t : State), step s = .next t →
    (s.irqStatus.getLsbD 0 = false → t.irqStatus.getLsbD 0 = true → s.lc ≠ none ∧ t.lc = none ∧ engineNext s)
    ∧ (s.irqStatus.getLsbD 1 = false → t.irqStatus.getLsbD 1 = true →
        s.lc = none ∧ ∃ v rest, s.inputs = .write 0x20#25 .b4 v :: rest ∧ s.validate v ≠ .none)
    ∧ (s.irqStatus.getLsbD 2 = false → t.irqStatus.getLsbD 2 = true →
        s.lc ≠ none ∧ ∃ v rest, s.inputs = .write 0x20#25 .b4 v :: rest)

/-! ### Host accesses to FMEM -/

/-- A host FMEM write outside the ranges of the command in flight stores its bytes little-endian and changes nothing else
(20_memory.md R64, R72). -/
def Obligations.HostWriteStoresLittleEndianBytes : Prop :=
  ∀ (s : State) (offset : BitVec 25) (size : AccessSize) (v : Word) (a : Nat) (rest : List Input),
    s.params.legal = true → s.mem.wf = true → offset.toNat = 0x01000000 + a → a % size.bytes = 0 →
    a + size.bytes ≤ s.params.fmemSize → (∀ i < size.bytes, s.inFlightBytes (a + i) = false) →
    s.inputs = .write offset size v :: rest →
    ∃ t, step s = .next t ∧ { t with mem := s.mem } = { s with inputs := rest }
      ∧ (∀ i < size.bytes, (t.mem.read (a + i)).toNat = v.toNat / 256 ^ i % 256)
      ∧ ∀ x, x < a ∨ a + size.bytes ≤ x → t.mem.read x = s.mem.read x

/-- A host FMEM read outside the destination of the command in flight returns the little-endian value of its bytes and changes
nothing (20_memory.md R64, R71). -/
def Obligations.HostReadReturnsTheLittleEndianValue : Prop :=
  ∀ (s : State) (offset : BitVec 25) (size : AccessSize) (a : Nat) (rest : List Input),
    s.params.legal = true → offset.toNat = 0x01000000 + a → a % size.bytes = 0 →
    a + size.bytes ≤ s.params.fmemSize → (∀ i < size.bytes, s.inFlightDst (a + i) = false) →
    s.inputs = .read offset size :: rest →
    ∃ value : Word, step s = .next { s with inputs := rest, lastRead := some value }
      ∧ value.toNat = ((List.range size.bytes).map fun i => (s.mem.read (a + i)).toNat * 256 ^ i).sum

/-- A host FMEM read while busy: each byte inside the destination range is a free value drawn for this read, each other byte is
current; only the free values' counter moves, past every value drawn (20_memory.md R71). The form of the free values is the
model's (log entries 5 and 10). -/
def Obligations.BusyDestinationBytesReadAsFreeValues : Prop :=
  ∀ (s : State) (offset : BitVec 25) (size : AccessSize) (a : Nat) (rest : List Input),
    s.params.legal = true → offset.toNat = 0x01000000 + a → a % size.bytes = 0 →
    a + size.bytes ≤ s.params.fmemSize → s.inputs = .read offset size :: rest →
    ∃ (value : Word) (t : State), step s = .next t
      ∧ { t with draws := s.draws } = { s with inputs := rest, lastRead := some value }
      ∧ (∀ i < size.bytes, value.toNat / 256 ^ i % 256
          = (if s.inFlightDst (a + i) then Config.freeByte (s.draws + i) else s.mem.read (a + i)).toNat)
      ∧ ((∃ i < size.bytes, s.inFlightDst (a + i) = true) → s.draws + size.bytes ≤ t.draws)

/-- A host FMEM write to a source or destination byte of the command in flight is a fault (20_memory.md R72, 70 R275). That one
byte inside the ranges faults the whole access, even one of several bytes, is the model's choice (log entry 8). -/
def Obligations.HostWriteUnderACommandFaults : Prop :=
  ∀ (s : State) (offset : BitVec 25) (size : AccessSize) (v : Word) (a i : Nat) (c : Latched) (r : Span)
    (rest : List Input),
    s.params.legal = true → offset.toNat = 0x01000000 + a → a % size.bytes = 0 →
    a + size.bytes ≤ s.params.fmemSize → s.lc = some c → r ∈ s.srcRanges c ++ c.dstRange.toList → i < size.bytes →
    r.base ≤ a + i → a + i < r.base + r.len →
    s.inputs = .write offset size v :: rest →
    step s = .fault .hostWriteUnderCommand

/-! ### Reset -/

/-- After reset every stored register field holds its reset value, for any parameters and any FMEM contents (10_state.md R49,
70_reset_and_hazards.md R272). The last clause is the model's choice: that the one reset state has the default parameters (log entry
3) and FMEM with nothing listed (log entry 1). -/
def Obligations.PowerUpLeavesTheResetValues : Prop :=
  ∀ (p : Params) (m : Memory), let s := State.powerUp p m
    s.width = 0 ∧ s.height = 0 ∧ s.srcAddr = 0 ∧ s.srcLen = 0 ∧ s.auxAddr = 0 ∧ s.dstAddr = 0 ∧ s.busy = false
    ∧ s.seqValid = false ∧ s.errCause.code = 0 ∧ s.err = false ∧ s.irqEn = 0 ∧ s.irqStatus = 0 ∧ s.irq = false
    ∧ s.prevAddr = 0 ∧ s.prevLen = 0 ∧ s.deltaCount = 0 ∧ s.lc = none ∧ s.mem = m
    ∧ s.readReg .id = 0x52590100#32 ∧ s.readReg .fmemSize = BitVec.ofNat 32 p.fmemSize ∧ s.statusWord = 0
    ∧ State.reset = State.powerUp Params.default []

/-- The reset input: every stored register field takes its reset value, the command in flight is discarded without `DONE_P`, and
FMEM keeps every byte outside the destination range of a command in flight (70_reset_and_hazards.md R270, R271). -/
def Obligations.ResetInputRestoresTheRegisters : Prop :=
  ∀ (s : State) (rest : List Input), s.params.legal = true → s.inputs = .reset :: rest →
    ∃ t, step s = .next t
      ∧ { t with mem := s.mem, draws := s.draws } = { s with
          inputs := rest
          width := 0, height := 0, srcAddr := 0, srcLen := 0, auxAddr := 0, dstAddr := 0
          lc := none, seqValid := false, errCause := .none, irqEn := 0, irqStatus := 0
          prevAddr := 0, prevLen := 0, deltaCount := 0 }
      ∧ (s.lc = none → t.mem = s.mem ∧ t.draws = s.draws)
      ∧ ∀ a, s.inFlightDst a = false → t.mem.read a = s.mem.read a

/-- The destination bytes of a command that reset discards become free values, one each, and the counter moves past them
(70_reset_and_hazards.md R271). The form of the free values is the model's (log entry 5). -/
def Obligations.ResetLeavesFreeDestinationBytes : Prop :=
  ∀ (s : State) (c : Latched) (r : Span) (rest : List Input), s.params.legal = true → s.mem.wf = true →
    s.inputs = .reset :: rest → s.lc = some c → c.dstRange = some r →
    ∃ t, step s = .next t ∧ (∀ i < r.len, t.mem.read (r.base + i) = Config.freeByte (s.draws + i))
      ∧ t.draws = s.draws + r.len

/-! ### The whole machine -/

/-- The invariant holds at power-up with legal parameters and any canonical FMEM contents, and so in the reset state. -/
def Obligations.PowerUpMeetsTheStateInvariant : Prop :=
  (∀ (p : Params) (m : Memory), p.legal = true → m.wf = true → m.within p.fmemSize = true → (State.powerUp p m).Inv)
  ∧ State.reset.Inv

/-- Every step keeps the invariant (`State.Inv`: FMEM canonical and inside `FMEM_SIZE`, sequence registers 0 outside a sequence, the
previous frame inside FMEM, the command in flight still valid). -/
def Obligations.EveryStepKeepsTheStateInvariant : Prop :=
  ∀ s t : State, s.Inv → step s = .next t → t.Inv

/-- No condition during execution is an error: under the invariant the command in flight completes
(40_command_execution.md R114). -/
def Obligations.AcceptedCommandCannotFail : Prop :=
  ∀ (s : State) (c : Latched), s.Inv → s.lc = some c →
    ∃ t, exec c.op s = .next t ∧ t.lc = none ∧ t.irqStatus = s.irqStatus ||| 0b001#3

/-- Under the invariant the only step that does not answer a next state is a host write under a running command
(60_exceptions.md R230, 70_reset_and_hazards.md R275). -/
def Obligations.OnlyAWriteUnderACommandStops : Prop :=
  ∀ s : State, s.Inv → (∃ t, step s = .next t)
    ∨ (step s = .fault .hostWriteUnderCommand ∧ s.lc ≠ none
        ∧ ∃ o size v rest, s.inputs = .write o size v :: rest ∧ 0x01000000 ≤ o.toNat)

/-- An accepted command completes after finitely many steps unless a reset comes first: under the host's discipline, within one
step more than there are inputs (40_command_execution.md R119). The queue of inputs is the model's (log entry 4). -/
def Obligations.CommandInFlightCompletes : Prop :=
  ∀ (s : State) (c : Latched), s.Inv → s.lc = some c →
    (∀ i ∈ s.inputs, i ≠ .reset ∧ s.respects i = true) →
    ∃ k ≤ s.inputs.length + 1, ∃ t, Host.Core.run core k s = .next t ∧ t.lc = none ∧ t.irqStatus.getLsbD 0 = true

/-- No step changes the parameters (00_scope.md R6, 10_state.md R45). -/
def Obligations.NoStepChangesTheParameters : Prop :=
  ∀ s t : State, step s = .next t → t.params = s.params

/-- No command writes an operand register, an enable bit or the recorded cause (10_state.md R47; 40_command_execution.md R110,
R114). -/
def Obligations.NoCommandWritesTheOperandRegisters : Prop :=
  ∀ (i : Instr) (s t : State), exec i s = .next t →
    t.width = s.width ∧ t.height = s.height ∧ t.srcAddr = s.srcAddr ∧ t.srcLen = s.srcLen ∧ t.auxAddr = s.auxAddr
    ∧ t.dstAddr = s.dstAddr ∧ t.irqEn = s.irqEn ∧ t.errCause = s.errCause

/-- A command in flight uses the latched operands only: rewriting the six operand registers while it runs changes nothing of its
result (40_command_execution.md R116). -/
def Obligations.CommandUsesOnlyLatchedOperands : Prop :=
  ∀ (i : Instr) (s t : State) (w h : BitVec 16) (src len aux dst : Word), exec i s = .next t →
    exec i { s with width := w, height := h, srcAddr := src, srcLen := len, auxAddr := aux, dstAddr := dst }
      = .next { t with width := w, height := h, srcAddr := src, srcLen := len, auxAddr := aux, dstAddr := dst }

/-- The delta sequence state changes only when a `DELTA` or a `DSEQ` completes, or at reset (10_state.md R43;
44_temporal_delta.md R203, R205). -/
def Obligations.SequenceStateChangesOnlyByItsCommands : Prop :=
  ∀ s t : State, step s = .next t →
    ¬ (t.seqValid = s.seqValid ∧ t.prevAddr = s.prevAddr ∧ t.prevLen = s.prevLen ∧ t.deltaCount = s.deltaCount) →
    (∃ rest, s.inputs = .reset :: rest)
    ∨ (engineNext s ∧ ∃ c, s.lc = some c ∧ (c.op = .delta ∨ c.op = .dseq))

/-- A byte of FMEM changes only in the destination range of the command that completes, or of the one that reset discards, or
under a host write to it (20_memory.md R66, R72; 70_reset_and_hazards.md R271). -/
def Obligations.FmemChangesOnlyWhereWritten : Prop :=
  ∀ (s t : State) (a : Nat), s.Inv → step s = .next t → t.mem.read a ≠ s.mem.read a →
    (s.inFlightDst a = true ∧ (engineNext s ∨ ∃ rest, s.inputs = .reset :: rest))
    ∨ ∃ o size v rest, s.inputs = .write o size v :: rest ∧ 0x01000000 ≤ o.toNat
        ∧ o.toNat - 0x01000000 ≤ a ∧ a < o.toNat - 0x01000000 + size.bytes

/-- The aperture: a system address reaches offset `o` exactly if it is `HOST_BASE + o` with `o` below 0x0200_0000
(20_memory.md R61). -/
def Obligations.ApertureStartsAtHostBase : Prop :=
  ∀ (p : Params) (x : Nat) (o : BitVec 25), apertureOffset p x = some o ↔ x = p.hostBase + o.toNat
end

