-- ==== Sys2Proof/Laws/Memory.lean ====
section
/-! SUPPORT. The laws of FMEM: a read after a write, the canonical form kept by every write, the bounds kept by writes inside
FMEM, and canonical memories equal when they read alike. -/

namespace Sys2Proof.Machine

@[simp] theorem Memory.read_nil (a : Nat) : Memory.read [] a = Memory.unlisted := rfl

theorem Memory.read_cons_same (x : Nat) (y : Byte) (m : Memory) : Memory.read ((x, y) :: m) x = y := by
  simp [Memory.read]

theorem Memory.read_cons_ne {x a : Nat} (y : Byte) (m : Memory) (h : x ≠ a) :
    Memory.read ((x, y) :: m) a = Memory.read m a := by
  simp [Memory.read, h]

theorem Memory.wfFrom_cons {lo x : Nat} {y : Byte} {m : Memory} :
    Memory.wfFrom lo ((x, y) :: m) = true ↔ lo ≤ x ∧ y ≠ Memory.unlisted ∧ Memory.wfFrom (x + 1) m = true := by
  simp [Memory.wfFrom, and_assoc]

theorem Memory.wfFrom_mono {lo lo' : Nat} {m : Memory} (h : lo' ≤ lo) (hw : Memory.wfFrom lo m = true) :
    Memory.wfFrom lo' m = true := by
  cases m with
  | nil => rfl
  | cons c m =>
    rw [Memory.wfFrom_cons] at hw ⊢
    exact ⟨by omega, hw.2⟩

/-- A canonical memory lists nothing below its lower bound. -/
theorem Memory.read_below {lo a : Nat} {m : Memory} (hw : Memory.wfFrom lo m = true) (h : a < lo) :
    Memory.read m a = Memory.unlisted := by
  induction m generalizing lo with
  | nil => rfl
  | cons c m ih =>
    obtain ⟨x, y⟩ := c
    rw [Memory.wfFrom_cons] at hw
    rw [Memory.read_cons_ne y m (by omega)]
    exact ih hw.2.2 (by omega)

/-- Every write keeps the canonical form. -/
theorem Memory.write_wfFrom {lo a : Nat} (b : Byte) {m : Memory} (hw : Memory.wfFrom lo m = true) (h : lo ≤ a) :
    Memory.wfFrom lo (Memory.write m a b) = true := by
  induction m generalizing lo with
  | nil =>
    by_cases hb : b = Memory.unlisted
    · simp [Memory.write, hb, Memory.wfFrom]
    · simp [Memory.write, hb, Memory.wfFrom, h]
  | cons c m ih =>
    obtain ⟨x, y⟩ := c
    have hw' := Memory.wfFrom_cons.mp hw
    unfold Memory.write
    split
    · split
      · exact hw
      · rename_i hax hb
        exact Memory.wfFrom_cons.mpr ⟨h, hb, Memory.wfFrom_cons.mpr ⟨by omega, hw'.2⟩⟩
    · split
      · rename_i hax
        subst hax
        split
        · exact Memory.wfFrom_mono (by omega) hw'.2.2
        · rename_i hb
          exact Memory.wfFrom_cons.mpr ⟨h, hb, hw'.2.2⟩
      · exact Memory.wfFrom_cons.mpr ⟨hw'.1, hw'.2.1, ih hw'.2.2 (by omega)⟩

theorem Memory.write_wf {m : Memory} (a : Nat) (b : Byte) (hw : m.wf = true) : (m.write a b).wf = true :=
  Memory.write_wfFrom b hw (Nat.zero_le a)

/-- A read after a write to the same address gives the byte written. -/
theorem Memory.read_write_same {lo : Nat} {m : Memory} (a : Nat) (b : Byte) (hw : Memory.wfFrom lo m = true) :
    (m.write a b).read a = b := by
  induction m generalizing lo with
  | nil =>
    by_cases hb : b = Memory.unlisted
    · simp [Memory.write, hb]
    · simp [Memory.write, hb, Memory.read]
  | cons c m ih =>
    obtain ⟨x, y⟩ := c
    rw [Memory.wfFrom_cons] at hw
    unfold Memory.write
    split
    · split
      · rename_i hax hb
        rw [Memory.read_cons_ne y m (by omega), Memory.read_below hw.2.2 (by omega), hb]
      · exact Memory.read_cons_same a b _
    · split
      · rename_i hax
        subst hax
        split
        · rename_i hb
          rw [Memory.read_below hw.2.2 (by omega), hb]
        · exact Memory.read_cons_same a b _
      · rename_i hax
        rw [Memory.read_cons_ne y _ (by omega)]
        exact ih hw.2.2

/-- A write leaves every other address alone. -/
theorem Memory.read_write_ne (m : Memory) {a a' : Nat} (b : Byte) (h : a ≠ a') : (m.write a b).read a' = m.read a' := by
  induction m with
  | nil =>
    by_cases hb : b = Memory.unlisted
    · simp [Memory.write, hb]
    · simp [Memory.write, hb, Memory.read, h]
  | cons c m ih =>
    obtain ⟨x, y⟩ := c
    unfold Memory.write
    split
    · split
      · rfl
      · exact Memory.read_cons_ne b _ h
    · split
      · rename_i hax
        subst hax
        split
        · rw [Memory.read_cons_ne y m h]
        · rw [Memory.read_cons_ne b m h, Memory.read_cons_ne y m h]
      · simp only [Memory.read, ih]

theorem Memory.writeBytes_wf {m : Memory} (a : Nat) (bs : List Byte) (hw : m.wf = true) : (m.writeBytes a bs).wf = true := by
  induction bs generalizing m a with
  | nil => exact hw
  | cons b bs ih => exact ih (a + 1) (Memory.write_wf a b hw)

/-- Bytes outside the written range read as before. -/
theorem Memory.read_writeBytes_outside (m : Memory) (a : Nat) (bs : List Byte) {x : Nat} (h : x < a ∨ a + bs.length ≤ x) :
    (m.writeBytes a bs).read x = m.read x := by
  induction bs generalizing m a with
  | nil => rfl
  | cons b bs ih =>
    simp only [List.length_cons] at h
    rw [Memory.writeBytes, ih (m.write a b) (a + 1) (by omega), Memory.read_write_ne m b (by omega)]

/-- Byte `i` of the written range reads as byte `i` of the sequence. -/
theorem Memory.read_writeBytes_inside {m : Memory} (a : Nat) (bs : List Byte) (hw : m.wf = true) {i : Nat}
    (h : i < bs.length) : (m.writeBytes a bs).read (a + i) = byteAt bs i := by
  induction bs generalizing m a i with
  | nil => simp at h
  | cons b bs ih =>
    rw [Memory.writeBytes]
    cases i with
    | zero =>
      rw [Memory.read_writeBytes_outside _ _ _ (by omega)]
      exact Memory.read_write_same a b hw
    | succ i =>
      have := ih (a + 1) (Memory.write_wf a b hw) (i := i) (by simpa using h)
      rw [show a + (i + 1) = a + 1 + i by omega, this]
      rfl

theorem Memory.write_within {m : Memory} {n a : Nat} (b : Byte) (hm : m.within n = true) (h : a < n) :
    (m.write a b).within n = true := by
  induction m with
  | nil =>
    by_cases hb : b = Memory.unlisted
    · simp [Memory.write, hb, Memory.within]
    · simp [Memory.write, hb, Memory.within, h]
  | cons c m ih =>
    obtain ⟨x, y⟩ := c
    simp only [Memory.within, List.all_cons, Bool.and_eq_true, decide_eq_true_eq] at hm ih ⊢
    unfold Memory.write
    split
    · split
      · simpa using hm
      · simp [h, hm.1, hm.2]
    · split
      · split
        · exact hm.2
        · simp [h, hm.2]
      · simp [hm.1, ih hm.2]

theorem Memory.writeBytes_within {m : Memory} {n : Nat} (a : Nat) (bs : List Byte) (hm : m.within n = true)
    (h : a + bs.length ≤ n) : (m.writeBytes a bs).within n = true := by
  induction bs generalizing m a with
  | nil => exact hm
  | cons b bs ih =>
    simp only [List.length_cons] at h
    exact ih (a + 1) (Memory.write_within b hm (by omega)) (by omega)

/-- Equal memories are equal data: canonical memories that read alike are the same list. -/
theorem Memory.ext_of_read {lo : Nat} {m m' : Memory} (hw : Memory.wfFrom lo m = true) (hw' : Memory.wfFrom lo m' = true)
    (h : ∀ a, m.read a = m'.read a) : m = m' := by
  induction m generalizing lo m' with
  | nil =>
    cases m' with
    | nil => rfl
    | cons c m' =>
      obtain ⟨x, y⟩ := c
      have := h x
      rw [Memory.read_cons_same] at this
      exact absurd this.symm (Memory.wfFrom_cons.mp hw').2.1
  | cons c m ih =>
    obtain ⟨x, y⟩ := c
    have hc := Memory.wfFrom_cons.mp hw
    cases m' with
    | nil =>
      have := h x
      rw [Memory.read_cons_same] at this
      exact absurd this hc.2.1
    | cons c' m' =>
      obtain ⟨x', y'⟩ := c'
      have hc' := Memory.wfFrom_cons.mp hw'
      rcases Nat.lt_trichotomy x x' with hx | hx | hx
      · have := h x
        rw [Memory.read_cons_same, Memory.read_cons_ne y' m' (by omega), Memory.read_below hc'.2.2 (by omega)] at this
        exact absurd this hc.2.1
      · subst hx
        have hy : y = y' := by
          have := h x
          rwa [Memory.read_cons_same, Memory.read_cons_same] at this
        subst hy
        congr 1
        refine ih hc.2.2 hc'.2.2 fun a => ?_
        by_cases ha : x = a
        · subst ha
          rw [Memory.read_below hc.2.2 (by omega), Memory.read_below hc'.2.2 (by omega)]
        · have := h a
          rwa [Memory.read_cons_ne y m ha, Memory.read_cons_ne y m' ha] at this
      · have := h x'
        rw [Memory.read_cons_same, Memory.read_cons_ne y m (by omega), Memory.read_below hc.2.2 (by omega)] at this
        exact absurd this.symm hc'.2.1

@[simp] theorem Memory.length_readBytes (m : Memory) (a n : Nat) : (m.readBytes a n).length = n := by
  simp [Memory.readBytes]

theorem byteAt_readBytes (m : Memory) (a : Nat) {n i : Nat} (h : i < n) : byteAt (m.readBytes a n) i = m.read (a + i) := by
  simp [byteAt, Memory.readBytes, List.getD, h]

theorem byteAt_map_range (f : Nat → Byte) {n i : Nat} (h : i < n) : byteAt ((List.range n).map f) i = f i := by
  simp [byteAt, List.getD, h]

theorem byteAt_append_left {xs : List Byte} (ys : List Byte) {i : Nat} (h : i < xs.length) :
    byteAt (xs ++ ys) i = byteAt xs i := by
  simp [byteAt, List.getD, List.getElem?_append_left h]

theorem byteAt_append_right {xs : List Byte} (ys : List Byte) (i : Nat) : byteAt (xs ++ ys) (xs.length + i) = byteAt ys i := by
  simp [byteAt, List.getD, List.getElem?_append_right]

theorem byteAt_take (xs : List Byte) {n i : Nat} (h : i < n) : byteAt (xs.take n) i = byteAt xs i := by
  simp [byteAt, List.getD, h]

theorem byteAt_drop (xs : List Byte) (n i : Nat) : byteAt (xs.drop n) i = byteAt xs (n + i) := by
  simp [byteAt, List.getD]

/-- Three byte sequences written one after the other read back, each at its own place. -/
theorem Memory.read_writeBytes_three {m : Memory} (a : Nat) (xs ys zs : List Byte) (hw : m.wf = true) :
    (∀ i < xs.length, (m.writeBytes a (xs ++ ys ++ zs)).read (a + i) = byteAt xs i)
    ∧ (∀ i < ys.length, (m.writeBytes a (xs ++ ys ++ zs)).read (a + xs.length + i) = byteAt ys i)
    ∧ ∀ i < zs.length, (m.writeBytes a (xs ++ ys ++ zs)).read (a + xs.length + ys.length + i) = byteAt zs i := by
  refine ⟨fun i hi => ?_, fun i hi => ?_, fun i hi => ?_⟩
  · rw [Memory.read_writeBytes_inside _ _ hw (by simp; omega), List.append_assoc, byteAt_append_left _ hi]
  · rw [Nat.add_assoc, Memory.read_writeBytes_inside _ _ hw (by simp; omega), byteAt_append_left _ (by simp; omega),
      byteAt_append_right]
  · rw [Nat.add_assoc a, Nat.add_assoc a, Memory.read_writeBytes_inside _ _ hw (by simp; omega), ← List.length_append,
      byteAt_append_right]

end Sys2Proof.Machine
end

