-- ==== Sys2Proof/Laws/State.lean ====
section
/-! SUPPORT. One lemma per field per named update of the state, each true by definition, so that no later proof unfolds a
record update. -/

namespace Sys2Proof.Machine

@[simp] theorem State.pend_params (s : State) (bit : BitVec 3) : (s.pend bit).params = s.params := rfl
@[simp] theorem State.pend_width (s : State) (bit : BitVec 3) : (s.pend bit).width = s.width := rfl
@[simp] theorem State.pend_height (s : State) (bit : BitVec 3) : (s.pend bit).height = s.height := rfl
@[simp] theorem State.pend_srcAddr (s : State) (bit : BitVec 3) : (s.pend bit).srcAddr = s.srcAddr := rfl
@[simp] theorem State.pend_srcLen (s : State) (bit : BitVec 3) : (s.pend bit).srcLen = s.srcLen := rfl
@[simp] theorem State.pend_auxAddr (s : State) (bit : BitVec 3) : (s.pend bit).auxAddr = s.auxAddr := rfl
@[simp] theorem State.pend_dstAddr (s : State) (bit : BitVec 3) : (s.pend bit).dstAddr = s.dstAddr := rfl
@[simp] theorem State.pend_lc (s : State) (bit : BitVec 3) : (s.pend bit).lc = s.lc := rfl
@[simp] theorem State.pend_seqValid (s : State) (bit : BitVec 3) : (s.pend bit).seqValid = s.seqValid := rfl
@[simp] theorem State.pend_errCause (s : State) (bit : BitVec 3) : (s.pend bit).errCause = s.errCause := rfl
@[simp] theorem State.pend_irqEn (s : State) (bit : BitVec 3) : (s.pend bit).irqEn = s.irqEn := rfl
@[simp] theorem State.pend_irqStatus (s : State) (bit : BitVec 3) : (s.pend bit).irqStatus = s.irqStatus ||| bit := rfl
@[simp] theorem State.pend_prevAddr (s : State) (bit : BitVec 3) : (s.pend bit).prevAddr = s.prevAddr := rfl
@[simp] theorem State.pend_prevLen (s : State) (bit : BitVec 3) : (s.pend bit).prevLen = s.prevLen := rfl
@[simp] theorem State.pend_deltaCount (s : State) (bit : BitVec 3) : (s.pend bit).deltaCount = s.deltaCount := rfl
@[simp] theorem State.pend_mem (s : State) (bit : BitVec 3) : (s.pend bit).mem = s.mem := rfl
@[simp] theorem State.pend_inputs (s : State) (bit : BitVec 3) : (s.pend bit).inputs = s.inputs := rfl
@[simp] theorem State.pend_lastRead (s : State) (bit : BitVec 3) : (s.pend bit).lastRead = s.lastRead := rfl
@[simp] theorem State.pend_draws (s : State) (bit : BitVec 3) : (s.pend bit).draws = s.draws := rfl

@[simp] theorem State.acknowledge_params (s : State) (v : Word) : (s.acknowledge v).params = s.params := rfl
@[simp] theorem State.acknowledge_width (s : State) (v : Word) : (s.acknowledge v).width = s.width := rfl
@[simp] theorem State.acknowledge_height (s : State) (v : Word) : (s.acknowledge v).height = s.height := rfl
@[simp] theorem State.acknowledge_srcAddr (s : State) (v : Word) : (s.acknowledge v).srcAddr = s.srcAddr := rfl
@[simp] theorem State.acknowledge_srcLen (s : State) (v : Word) : (s.acknowledge v).srcLen = s.srcLen := rfl
@[simp] theorem State.acknowledge_auxAddr (s : State) (v : Word) : (s.acknowledge v).auxAddr = s.auxAddr := rfl
@[simp] theorem State.acknowledge_dstAddr (s : State) (v : Word) : (s.acknowledge v).dstAddr = s.dstAddr := rfl
@[simp] theorem State.acknowledge_lc (s : State) (v : Word) : (s.acknowledge v).lc = s.lc := rfl
@[simp] theorem State.acknowledge_seqValid (s : State) (v : Word) : (s.acknowledge v).seqValid = s.seqValid := rfl
@[simp] theorem State.acknowledge_errCause (s : State) (v : Word) : (s.acknowledge v).errCause = s.errCause := rfl
@[simp] theorem State.acknowledge_irqEn (s : State) (v : Word) : (s.acknowledge v).irqEn = s.irqEn := rfl
@[simp] theorem State.acknowledge_irqStatus (s : State) (v : Word) : (s.acknowledge v).irqStatus = s.irqStatus &&& ~~~(v.extractLsb' 0 3) := rfl
@[simp] theorem State.acknowledge_prevAddr (s : State) (v : Word) : (s.acknowledge v).prevAddr = s.prevAddr := rfl
@[simp] theorem State.acknowledge_prevLen (s : State) (v : Word) : (s.acknowledge v).prevLen = s.prevLen := rfl
@[simp] theorem State.acknowledge_deltaCount (s : State) (v : Word) : (s.acknowledge v).deltaCount = s.deltaCount := rfl
@[simp] theorem State.acknowledge_mem (s : State) (v : Word) : (s.acknowledge v).mem = s.mem := rfl
@[simp] theorem State.acknowledge_inputs (s : State) (v : Word) : (s.acknowledge v).inputs = s.inputs := rfl
@[simp] theorem State.acknowledge_lastRead (s : State) (v : Word) : (s.acknowledge v).lastRead = s.lastRead := rfl
@[simp] theorem State.acknowledge_draws (s : State) (v : Word) : (s.acknowledge v).draws = s.draws := rfl

@[simp] theorem State.complete_params (s : State) : s.complete.params = s.params := rfl
@[simp] theorem State.complete_width (s : State) : s.complete.width = s.width := rfl
@[simp] theorem State.complete_height (s : State) : s.complete.height = s.height := rfl
@[simp] theorem State.complete_srcAddr (s : State) : s.complete.srcAddr = s.srcAddr := rfl
@[simp] theorem State.complete_srcLen (s : State) : s.complete.srcLen = s.srcLen := rfl
@[simp] theorem State.complete_auxAddr (s : State) : s.complete.auxAddr = s.auxAddr := rfl
@[simp] theorem State.complete_dstAddr (s : State) : s.complete.dstAddr = s.dstAddr := rfl
@[simp] theorem State.complete_lc (s : State) : s.complete.lc = none := rfl
@[simp] theorem State.complete_seqValid (s : State) : s.complete.seqValid = s.seqValid := rfl
@[simp] theorem State.complete_errCause (s : State) : s.complete.errCause = s.errCause := rfl
@[simp] theorem State.complete_irqEn (s : State) : s.complete.irqEn = s.irqEn := rfl
@[simp] theorem State.complete_irqStatus (s : State) : s.complete.irqStatus = s.irqStatus ||| donePending := rfl
@[simp] theorem State.complete_prevAddr (s : State) : s.complete.prevAddr = s.prevAddr := rfl
@[simp] theorem State.complete_prevLen (s : State) : s.complete.prevLen = s.prevLen := rfl
@[simp] theorem State.complete_deltaCount (s : State) : s.complete.deltaCount = s.deltaCount := rfl
@[simp] theorem State.complete_mem (s : State) : s.complete.mem = s.mem := rfl
@[simp] theorem State.complete_inputs (s : State) : s.complete.inputs = s.inputs := rfl
@[simp] theorem State.complete_lastRead (s : State) : s.complete.lastRead = s.lastRead := rfl
@[simp] theorem State.complete_draws (s : State) : s.complete.draws = s.draws := rfl

@[simp] theorem State.reject_params (s : State) (e : Cause) : (s.reject e).params = s.params := rfl
@[simp] theorem State.reject_width (s : State) (e : Cause) : (s.reject e).width = s.width := rfl
@[simp] theorem State.reject_height (s : State) (e : Cause) : (s.reject e).height = s.height := rfl
@[simp] theorem State.reject_srcAddr (s : State) (e : Cause) : (s.reject e).srcAddr = s.srcAddr := rfl
@[simp] theorem State.reject_srcLen (s : State) (e : Cause) : (s.reject e).srcLen = s.srcLen := rfl
@[simp] theorem State.reject_auxAddr (s : State) (e : Cause) : (s.reject e).auxAddr = s.auxAddr := rfl
@[simp] theorem State.reject_dstAddr (s : State) (e : Cause) : (s.reject e).dstAddr = s.dstAddr := rfl
@[simp] theorem State.reject_lc (s : State) (e : Cause) : (s.reject e).lc = s.lc := rfl
@[simp] theorem State.reject_seqValid (s : State) (e : Cause) : (s.reject e).seqValid = s.seqValid := rfl
@[simp] theorem State.reject_errCause (s : State) (e : Cause) : (s.reject e).errCause = e := rfl
@[simp] theorem State.reject_irqEn (s : State) (e : Cause) : (s.reject e).irqEn = s.irqEn := rfl
@[simp] theorem State.reject_irqStatus (s : State) (e : Cause) : (s.reject e).irqStatus = s.irqStatus ||| errPending := rfl
@[simp] theorem State.reject_prevAddr (s : State) (e : Cause) : (s.reject e).prevAddr = s.prevAddr := rfl
@[simp] theorem State.reject_prevLen (s : State) (e : Cause) : (s.reject e).prevLen = s.prevLen := rfl
@[simp] theorem State.reject_deltaCount (s : State) (e : Cause) : (s.reject e).deltaCount = s.deltaCount := rfl
@[simp] theorem State.reject_mem (s : State) (e : Cause) : (s.reject e).mem = s.mem := rfl
@[simp] theorem State.reject_inputs (s : State) (e : Cause) : (s.reject e).inputs = s.inputs := rfl
@[simp] theorem State.reject_lastRead (s : State) (e : Cause) : (s.reject e).lastRead = s.lastRead := rfl
@[simp] theorem State.reject_draws (s : State) (e : Cause) : (s.reject e).draws = s.draws := rfl

@[simp] theorem State.accept_params (s : State) (op : Instr) : (s.accept op).params = s.params := rfl
@[simp] theorem State.accept_width (s : State) (op : Instr) : (s.accept op).width = s.width := rfl
@[simp] theorem State.accept_height (s : State) (op : Instr) : (s.accept op).height = s.height := rfl
@[simp] theorem State.accept_srcAddr (s : State) (op : Instr) : (s.accept op).srcAddr = s.srcAddr := rfl
@[simp] theorem State.accept_srcLen (s : State) (op : Instr) : (s.accept op).srcLen = s.srcLen := rfl
@[simp] theorem State.accept_auxAddr (s : State) (op : Instr) : (s.accept op).auxAddr = s.auxAddr := rfl
@[simp] theorem State.accept_dstAddr (s : State) (op : Instr) : (s.accept op).dstAddr = s.dstAddr := rfl
@[simp] theorem State.accept_lc (s : State) (op : Instr) : (s.accept op).lc = some (s.latch op) := rfl
@[simp] theorem State.accept_seqValid (s : State) (op : Instr) : (s.accept op).seqValid = s.seqValid := rfl
@[simp] theorem State.accept_errCause (s : State) (op : Instr) : (s.accept op).errCause = .none := rfl
@[simp] theorem State.accept_irqEn (s : State) (op : Instr) : (s.accept op).irqEn = s.irqEn := rfl
@[simp] theorem State.accept_irqStatus (s : State) (op : Instr) : (s.accept op).irqStatus = s.irqStatus := rfl
@[simp] theorem State.accept_prevAddr (s : State) (op : Instr) : (s.accept op).prevAddr = s.prevAddr := rfl
@[simp] theorem State.accept_prevLen (s : State) (op : Instr) : (s.accept op).prevLen = s.prevLen := rfl
@[simp] theorem State.accept_deltaCount (s : State) (op : Instr) : (s.accept op).deltaCount = s.deltaCount := rfl
@[simp] theorem State.accept_mem (s : State) (op : Instr) : (s.accept op).mem = s.mem := rfl
@[simp] theorem State.accept_inputs (s : State) (op : Instr) : (s.accept op).inputs = s.inputs := rfl
@[simp] theorem State.accept_lastRead (s : State) (op : Instr) : (s.accept op).lastRead = s.lastRead := rfl
@[simp] theorem State.accept_draws (s : State) (op : Instr) : (s.accept op).draws = s.draws := rfl

@[simp] theorem State.sequenceUpdate_params (s : State) (c : Latched) : (s.sequenceUpdate c).params = s.params := rfl
@[simp] theorem State.sequenceUpdate_width (s : State) (c : Latched) : (s.sequenceUpdate c).width = s.width := rfl
@[simp] theorem State.sequenceUpdate_height (s : State) (c : Latched) : (s.sequenceUpdate c).height = s.height := rfl
@[simp] theorem State.sequenceUpdate_srcAddr (s : State) (c : Latched) : (s.sequenceUpdate c).srcAddr = s.srcAddr := rfl
@[simp] theorem State.sequenceUpdate_srcLen (s : State) (c : Latched) : (s.sequenceUpdate c).srcLen = s.srcLen := rfl
@[simp] theorem State.sequenceUpdate_auxAddr (s : State) (c : Latched) : (s.sequenceUpdate c).auxAddr = s.auxAddr := rfl
@[simp] theorem State.sequenceUpdate_dstAddr (s : State) (c : Latched) : (s.sequenceUpdate c).dstAddr = s.dstAddr := rfl
@[simp] theorem State.sequenceUpdate_lc (s : State) (c : Latched) : (s.sequenceUpdate c).lc = s.lc := rfl
@[simp] theorem State.sequenceUpdate_seqValid (s : State) (c : Latched) : (s.sequenceUpdate c).seqValid = true := rfl
@[simp] theorem State.sequenceUpdate_errCause (s : State) (c : Latched) : (s.sequenceUpdate c).errCause = s.errCause := rfl
@[simp] theorem State.sequenceUpdate_irqEn (s : State) (c : Latched) : (s.sequenceUpdate c).irqEn = s.irqEn := rfl
@[simp] theorem State.sequenceUpdate_irqStatus (s : State) (c : Latched) : (s.sequenceUpdate c).irqStatus = s.irqStatus := rfl
@[simp] theorem State.sequenceUpdate_prevAddr (s : State) (c : Latched) : (s.sequenceUpdate c).prevAddr = c.src := rfl
@[simp] theorem State.sequenceUpdate_prevLen (s : State) (c : Latched) : (s.sequenceUpdate c).prevLen = c.len := rfl
@[simp] theorem State.sequenceUpdate_deltaCount (s : State) (c : Latched) : (s.sequenceUpdate c).deltaCount = s.deltaCount + 1 := rfl
@[simp] theorem State.sequenceUpdate_mem (s : State) (c : Latched) : (s.sequenceUpdate c).mem = s.mem := rfl
@[simp] theorem State.sequenceUpdate_inputs (s : State) (c : Latched) : (s.sequenceUpdate c).inputs = s.inputs := rfl
@[simp] theorem State.sequenceUpdate_lastRead (s : State) (c : Latched) : (s.sequenceUpdate c).lastRead = s.lastRead := rfl
@[simp] theorem State.sequenceUpdate_draws (s : State) (c : Latched) : (s.sequenceUpdate c).draws = s.draws := rfl

@[simp] theorem State.sequenceClear_params (s : State) : s.sequenceClear.params = s.params := rfl
@[simp] theorem State.sequenceClear_width (s : State) : s.sequenceClear.width = s.width := rfl
@[simp] theorem State.sequenceClear_height (s : State) : s.sequenceClear.height = s.height := rfl
@[simp] theorem State.sequenceClear_srcAddr (s : State) : s.sequenceClear.srcAddr = s.srcAddr := rfl
@[simp] theorem State.sequenceClear_srcLen (s : State) : s.sequenceClear.srcLen = s.srcLen := rfl
@[simp] theorem State.sequenceClear_auxAddr (s : State) : s.sequenceClear.auxAddr = s.auxAddr := rfl
@[simp] theorem State.sequenceClear_dstAddr (s : State) : s.sequenceClear.dstAddr = s.dstAddr := rfl
@[simp] theorem State.sequenceClear_lc (s : State) : s.sequenceClear.lc = s.lc := rfl
@[simp] theorem State.sequenceClear_seqValid (s : State) : s.sequenceClear.seqValid = false := rfl
@[simp] theorem State.sequenceClear_errCause (s : State) : s.sequenceClear.errCause = s.errCause := rfl
@[simp] theorem State.sequenceClear_irqEn (s : State) : s.sequenceClear.irqEn = s.irqEn := rfl
@[simp] theorem State.sequenceClear_irqStatus (s : State) : s.sequenceClear.irqStatus = s.irqStatus := rfl
@[simp] theorem State.sequenceClear_prevAddr (s : State) : s.sequenceClear.prevAddr = 0 := rfl
@[simp] theorem State.sequenceClear_prevLen (s : State) : s.sequenceClear.prevLen = 0 := rfl
@[simp] theorem State.sequenceClear_deltaCount (s : State) : s.sequenceClear.deltaCount = 0 := rfl
@[simp] theorem State.sequenceClear_mem (s : State) : s.sequenceClear.mem = s.mem := rfl
@[simp] theorem State.sequenceClear_inputs (s : State) : s.sequenceClear.inputs = s.inputs := rfl
@[simp] theorem State.sequenceClear_lastRead (s : State) : s.sequenceClear.lastRead = s.lastRead := rfl
@[simp] theorem State.sequenceClear_draws (s : State) : s.sequenceClear.draws = s.draws := rfl

@[simp] theorem State.storeBytes_params (s : State) (a : Nat) (out : List Byte) : (s.storeBytes a out).params = s.params := rfl
@[simp] theorem State.storeBytes_width (s : State) (a : Nat) (out : List Byte) : (s.storeBytes a out).width = s.width := rfl
@[simp] theorem State.storeBytes_height (s : State) (a : Nat) (out : List Byte) : (s.storeBytes a out).height = s.height := rfl
@[simp] theorem State.storeBytes_srcAddr (s : State) (a : Nat) (out : List Byte) : (s.storeBytes a out).srcAddr = s.srcAddr := rfl
@[simp] theorem State.storeBytes_srcLen (s : State) (a : Nat) (out : List Byte) : (s.storeBytes a out).srcLen = s.srcLen := rfl
@[simp] theorem State.storeBytes_auxAddr (s : State) (a : Nat) (out : List Byte) : (s.storeBytes a out).auxAddr = s.auxAddr := rfl
@[simp] theorem State.storeBytes_dstAddr (s : State) (a : Nat) (out : List Byte) : (s.storeBytes a out).dstAddr = s.dstAddr := rfl
@[simp] theorem State.storeBytes_lc (s : State) (a : Nat) (out : List Byte) : (s.storeBytes a out).lc = s.lc := rfl
@[simp] theorem State.storeBytes_seqValid (s : State) (a : Nat) (out : List Byte) : (s.storeBytes a out).seqValid = s.seqValid := rfl
@[simp] theorem State.storeBytes_errCause (s : State) (a : Nat) (out : List Byte) : (s.storeBytes a out).errCause = s.errCause := rfl
@[simp] theorem State.storeBytes_irqEn (s : State) (a : Nat) (out : List Byte) : (s.storeBytes a out).irqEn = s.irqEn := rfl
@[simp] theorem State.storeBytes_irqStatus (s : State) (a : Nat) (out : List Byte) : (s.storeBytes a out).irqStatus = s.irqStatus := rfl
@[simp] theorem State.storeBytes_prevAddr (s : State) (a : Nat) (out : List Byte) : (s.storeBytes a out).prevAddr = s.prevAddr := rfl
@[simp] theorem State.storeBytes_prevLen (s : State) (a : Nat) (out : List Byte) : (s.storeBytes a out).prevLen = s.prevLen := rfl
@[simp] theorem State.storeBytes_deltaCount (s : State) (a : Nat) (out : List Byte) : (s.storeBytes a out).deltaCount = s.deltaCount := rfl
@[simp] theorem State.storeBytes_mem (s : State) (a : Nat) (out : List Byte) : (s.storeBytes a out).mem = s.mem.writeBytes a out := rfl
@[simp] theorem State.storeBytes_inputs (s : State) (a : Nat) (out : List Byte) : (s.storeBytes a out).inputs = s.inputs := rfl
@[simp] theorem State.storeBytes_lastRead (s : State) (a : Nat) (out : List Byte) : (s.storeBytes a out).lastRead = s.lastRead := rfl
@[simp] theorem State.storeBytes_draws (s : State) (a : Nat) (out : List Byte) : (s.storeBytes a out).draws = s.draws := rfl

@[simp] theorem State.resetInput_params (s : State) : s.resetInput.params = s.params := rfl
@[simp] theorem State.resetInput_width (s : State) : s.resetInput.width = 0 := rfl
@[simp] theorem State.resetInput_height (s : State) : s.resetInput.height = 0 := rfl
@[simp] theorem State.resetInput_srcAddr (s : State) : s.resetInput.srcAddr = 0 := rfl
@[simp] theorem State.resetInput_srcLen (s : State) : s.resetInput.srcLen = 0 := rfl
@[simp] theorem State.resetInput_auxAddr (s : State) : s.resetInput.auxAddr = 0 := rfl
@[simp] theorem State.resetInput_dstAddr (s : State) : s.resetInput.dstAddr = 0 := rfl
@[simp] theorem State.resetInput_lc (s : State) : s.resetInput.lc = none := rfl
@[simp] theorem State.resetInput_seqValid (s : State) : s.resetInput.seqValid = false := rfl
@[simp] theorem State.resetInput_errCause (s : State) : s.resetInput.errCause = .none := rfl
@[simp] theorem State.resetInput_irqEn (s : State) : s.resetInput.irqEn = 0 := rfl
@[simp] theorem State.resetInput_irqStatus (s : State) : s.resetInput.irqStatus = 0 := rfl
@[simp] theorem State.resetInput_prevAddr (s : State) : s.resetInput.prevAddr = 0 := rfl
@[simp] theorem State.resetInput_prevLen (s : State) : s.resetInput.prevLen = 0 := rfl
@[simp] theorem State.resetInput_deltaCount (s : State) : s.resetInput.deltaCount = 0 := rfl
@[simp] theorem State.resetInput_mem (s : State) : s.resetInput.mem = s.scrambleDst.mem := rfl
@[simp] theorem State.resetInput_inputs (s : State) : s.resetInput.inputs = s.inputs := rfl
@[simp] theorem State.resetInput_lastRead (s : State) : s.resetInput.lastRead = s.lastRead := rfl
@[simp] theorem State.resetInput_draws (s : State) : s.resetInput.draws = s.scrambleDst.draws := rfl

end Sys2Proof.Machine
end

