-- ==== Sys2Proof/Laws/Ops.lean ====
section
/-! SUPPORT. One spec lemma per shared operation: when it goes on, when it stops, and everything a next state can be. -/

namespace Sys2Proof.Machine

/-! ### The primitives of a completion -/

theorem State.withLatched_some {s : State} {c : Latched} (k : Latched → Result) (h : s.lc = some c) :
    s.withLatched k = k c := by
  simp [State.withLatched, h]

theorem State.withLatched_next {s t : State} {k : Latched → Result} (h : s.withLatched k = .next t) :
    ∃ c, s.lc = some c ∧ k c = .next t := by
  unfold State.withLatched at h
  split at h
  · exact ⟨_, ‹_›, h⟩
  · cases h

theorem State.withBytes_fits {s : State} {a n : Nat} (k : List Byte → Result) (h : a + n ≤ s.params.fmemSize) :
    s.withBytes a n k = k (s.mem.readBytes a n) := by
  simp [State.withBytes, h]

theorem State.withBytes_next {s t : State} {a n : Nat} {k : List Byte → Result} (h : s.withBytes a n k = .next t) :
    a + n ≤ s.params.fmemSize ∧ k (s.mem.readBytes a n) = .next t := by
  unfold State.withBytes at h
  split at h
  · exact ⟨‹_›, h⟩
  · cases h

theorem State.withStored_fits {s : State} {a : Nat} {out : List Byte} (k : State → Result)
    (h : a + out.length ≤ s.params.fmemSize) : s.withStored a out k = k (s.storeBytes a out) := by
  simp [State.withStored, h]

theorem State.withStored_next {s t : State} {a : Nat} {out : List Byte} {k : State → Result}
    (h : s.withStored a out k = .next t) :
    a + out.length ≤ s.params.fmemSize ∧ k (s.storeBytes a out) = .next t := by
  unfold State.withStored at h
  split at h
  · exact ⟨‹_›, h⟩
  · cases h

/-! ### Validation -/

/-- What it means that a frame command passes validation (40_command_execution.md R111). -/
structure State.Valid (s : State) (c : Latched) : Prop where
  w_pos : 0 < c.w.toNat
  h_pos : 0 < c.h.toNat
  w_even : c.w.toNat % 2 = 0
  h_even : c.h.toNat % 2 = 0
  len_eq : c.len.toNat = expLen c.op c.pixels
  prev_eq : c.op = .delta → s.seqValid = true → s.prevLen = c.len
  fits : ∀ r ∈ s.srcRanges c ++ c.dstRange.toList, r.base + r.len ≤ s.params.fmemSize
  apart : ∀ r ∈ s.srcRanges c, ∀ d ∈ c.dstRange.toList, r.overlaps d = false

theorem State.validateLatched_frame {s : State} {c : Latched} (hf : isFrameCommand c.op = true) :
    s.validateLatched c = .none ↔ s.Valid c := by
  constructor
  · intro h
    unfold State.validateLatched at h
    rw [if_neg (by simp [hf])] at h
    split at h
    · cases h
    · split at h
      · cases h
      · split at h
        · cases h
        · split at h
          · cases h
          · split at h
            · cases h
            · split at h
              · cases h
              · rename_i h1 h2 h3 h4 h5 h6
                refine ⟨by omega, by omega, by omega, by omega, by omega, ?_, ?_, ?_⟩
                · intro hd hs
                  by_contra hne
                  exact h4 ⟨hd, hs, hne⟩
                · intro r hr
                  simp only [Bool.not_eq_false, List.all_eq_true] at h5
                  simpa [Span.fits] using h5 r hr
                · intro r hr d hd
                  simp only [Bool.not_eq_true, List.any_eq_false] at h6
                  exact h6 r hr d hd
  · intro v
    unfold State.validateLatched
    have hw := v.w_pos
    have hh := v.h_pos
    have he := v.w_even
    have he' := v.h_even
    rw [if_neg (by simp [hf]), if_neg (by omega), if_neg (by omega), if_neg (by simp [v.len_eq]),
      if_neg (fun ⟨hd, hs, hne⟩ => hne (v.prev_eq hd hs)), if_neg, if_neg]
    · simp only [Bool.not_eq_true, List.any_eq_false]
      intro r hr d hd
      exact v.apart r hr d hd
    · simp only [Bool.not_eq_false, List.all_eq_true]
      intro r hr
      simpa [Span.fits] using v.fits r hr

theorem State.srcRanges_congr {s t : State} (c : Latched) (hv : t.seqValid = s.seqValid) (ha : t.prevAddr = s.prevAddr)
    (hl : t.prevLen = s.prevLen) : t.srcRanges c = s.srcRanges c := by
  unfold State.srcRanges State.prevRanges
  rw [hv, ha, hl]

/-- Validation reads the parameters and the sequence state only. -/
theorem State.validateLatched_congr {s t : State} (c : Latched) (hp : t.params = s.params) (hv : t.seqValid = s.seqValid)
    (ha : t.prevAddr = s.prevAddr) (hl : t.prevLen = s.prevLen) : t.validateLatched c = s.validateLatched c := by
  unfold State.validateLatched
  rw [State.srcRanges_congr c hv ha hl, hp, hv, hl]

theorem Latched.quarter_even {c : Latched} (hw : c.w.toNat % 2 = 0) (hh : c.h.toNat % 2 = 0) :
    c.pixels % 4 = 0 ∧ c.quarter = c.h.toNat / 2 * (c.w.toNat / 2) := by
  obtain ⟨a, ha⟩ := Nat.dvd_of_mod_eq_zero hw
  obtain ⟨b, hb⟩ := Nat.dvd_of_mod_eq_zero hh
  have hp : c.pixels = 4 * (b * a) := by rw [Latched.pixels, ha, hb]; ring
  have hq : c.h.toNat / 2 * (c.w.toNat / 2) = b * a := by rw [ha, hb]; simp
  rw [Latched.quarter, hp, hq]
  omega

/-! ### Acceptance -/

theorem State.busy_eq (s : State) : s.busy = s.lc.isSome := rfl

theorem State.presentCommand_busy {s : State} {c : Latched} (v : Word) (h : s.lc = some c) :
    s.presentCommand v = s.pend ovrPending := by
  simp [State.presentCommand, State.busy, h]

theorem State.presentCommand_illegal {s : State} {v : Word} {e : DecodeError} (h : s.lc = none) (hd : decode v = .error e) :
    s.presentCommand v = s.reject .illegalCmd := by
  simp [State.presentCommand, State.busy, h, hd]

theorem State.presentCommand_rejects {s : State} {v : Word} (h : s.lc = none) (hv : s.validate v ≠ .none) :
    s.presentCommand v = s.reject (s.validate v) := by
  cases hd : decode v with
  | error e => simp [State.presentCommand, State.busy, h, hd, State.validate]
  | ok op =>
    simp only [State.presentCommand, State.busy, h, hd, Option.isSome_none, Bool.false_eq_true, if_false]

theorem State.presentCommand_accepts {s : State} {v : Word} (h : s.lc = none) (hv : s.validate v = .none) :
    ∃ op, decode v = .ok op ∧ s.validateLatched (s.latch op) = .none ∧ s.presentCommand v = s.accept op := by
  cases hd : decode v with
  | error e => simp [State.validate, hd] at hv
  | ok op =>
    refine ⟨op, rfl, by simpa [State.validate, hd] using hv, ?_⟩
    simp [State.presentCommand, State.busy, h, hd, hv]

/-- Everything a `CMD` write can do (40_command_execution.md R110). -/
theorem State.presentCommand_cases (s : State) (v : Word) :
    (s.lc ≠ none ∧ s.presentCommand v = s.pend ovrPending)
    ∨ (s.lc = none ∧ s.validate v ≠ .none ∧ s.presentCommand v = s.reject (s.validate v))
    ∨ (s.lc = none ∧ s.validate v = .none ∧ ∃ op, decode v = .ok op ∧ s.validateLatched (s.latch op) = .none
        ∧ s.presentCommand v = s.accept op) := by
  cases h : s.lc with
  | some c => exact .inl ⟨by simp, State.presentCommand_busy v h⟩
  | none =>
    by_cases hv : s.validate v = .none
    · exact .inr (.inr ⟨rfl, hv, State.presentCommand_accepts h hv⟩)
    · exact .inr (.inl ⟨rfl, hv, State.presentCommand_rejects h hv⟩)

/-! ### Free values and reset -/

@[simp] theorem length_freeBytes (k n : Nat) : (freeBytes k n).length = n := by simp [freeBytes]

theorem byteAt_freeBytes (k : Nat) {n i : Nat} (h : i < n) : byteAt (freeBytes k n) i = Config.freeByte (k + i) :=
  byteAt_map_range _ h

/-- What reset does to FMEM and to the counter of free values. -/
theorem State.scrambleDst_cases (s : State) :
    (s.scrambleDst = s ∧ ∀ a, s.inFlightDst a = false)
    ∨ ∃ c r, s.lc = some c ∧ c.dstRange = some r ∧ (∀ a, s.inFlightDst a = r.covers a)
      ∧ s.scrambleDst = { s.storeBytes r.base (freeBytes s.draws r.len) with draws := s.draws + r.len } := by
  cases h : s.lc with
  | none => exact .inl ⟨by simp [State.scrambleDst, h], by simp [State.inFlightDst, h]⟩
  | some c =>
    cases hr : c.dstRange with
    | none => exact .inl ⟨by simp [State.scrambleDst, h, hr], by simp [State.inFlightDst, h, hr]⟩
    | some r =>
      exact .inr ⟨c, r, rfl, hr, by simp [State.inFlightDst, h, hr], by simp [State.scrambleDst, h, hr]⟩

/-! ### Host accesses -/

/-- Where an access can go (20_memory.md R61 to R63). -/
theorem State.target_cases (s : State) (o : BitVec 25) (size : AccessSize) :
    (∃ r, size = .b4 ∧ Reg.atOffset o.toNat = some r ∧ s.target o size = .register r)
    ∨ (0x01000000 ≤ o.toNat ∧ o.toNat % size.bytes = 0 ∧ o.toNat - 0x01000000 + size.bytes ≤ s.params.fmemSize
        ∧ s.target o size = .fmem (o.toNat - 0x01000000) size.bytes)
    ∨ s.target o size = .nothing := by
  by_cases ho : o.toNat < fmemWindow
  · unfold State.target
    rw [if_pos ho]
    cases size with
    | b1 => exact .inr (.inr rfl)
    | b2 => exact .inr (.inr rfl)
    | b4 =>
      cases hr : Reg.atOffset o.toNat with
      | none => exact .inr (.inr rfl)
      | some r => exact .inl ⟨r, rfl, rfl, rfl⟩
  · unfold State.target
    rw [if_neg ho]
    have hw : fmemWindow ≤ o.toNat := Nat.le_of_not_lt ho
    split
    · rename_i h
      exact .inr (.inl ⟨hw, h.1, h.2, rfl⟩)
    · exact .inr (.inr rfl)

theorem Reg.atOffset_offset (r : Reg) : Reg.atOffset r.offset.toNat = some r := by cases r <;> rfl

theorem Reg.offset_of_atOffset {o : BitVec 25} {r : Reg} (h : Reg.atOffset o.toNat = some r) : o = r.offset := by
  apply BitVec.eq_of_toNat_eq
  unfold Reg.atOffset at h
  split at h <;> cases h <;> simp_all [Reg.offset]

theorem State.target_register (s : State) (r : Reg) : s.target r.offset .b4 = .register r := by
  unfold State.target
  rw [if_pos (by cases r <;> decide), Reg.atOffset_offset]

theorem State.target_fmem {s : State} {o : BitVec 25} {size : AccessSize} {a : Nat} (h : o.toNat = 0x01000000 + a)
    (ha : a % size.bytes = 0) (hf : a + size.bytes ≤ s.params.fmemSize) : s.target o size = .fmem a size.bytes := by
  have hn : ¬ o.toNat < fmemWindow := by rw [h, fmemWindow]; omega
  have hm : o.toNat % size.bytes = 0 := by rw [h]; cases size <;> simp only [AccessSize.bytes] at ha ⊢ <;> omega
  have hd : o.toNat - fmemWindow = a := by rw [h, fmemWindow]; omega
  unfold State.target
  rw [if_neg hn, hd, if_pos ⟨hm, hf⟩]

/-- A host read changes nothing but what the host got back and the counter of free values (10_state.md R38). -/
theorem State.hostRead_frame (s : State) (o : BitVec 25) (size : AccessSize) :
    ∃ value drawn, s.hostRead o size = { s with lastRead := some value, draws := drawn } := by
  unfold State.hostRead
  split <;> exact ⟨_, _, rfl⟩

@[simp] theorem length_leBytes (v : Word) (n : Nat) : (leBytes v n).length = n := by simp [leBytes]

theorem byteAt_leBytes (v : Word) {n i : Nat} (h : i < n) : byteAt (leBytes v n) i = v.extractLsb' (8 * i) 8 :=
  byteAt_map_range _ h

/-- Everything a host write that goes on can do (20_memory.md R63, R64, R72). -/
theorem State.hostWrite_next {s t : State} {o : BitVec 25} {size : AccessSize} {v : Word}
    (h : s.hostWrite o size v = .next t) :
    (∃ r, size = .b4 ∧ o = Reg.offset r ∧ t = s.writeReg r v)
    ∨ (0x01000000 ≤ o.toNat ∧ o.toNat - 0x01000000 + size.bytes ≤ s.params.fmemSize
        ∧ s.underCommand (o.toNat - 0x01000000) size.bytes = false
        ∧ t = s.storeBytes (o.toNat - 0x01000000) (leBytes v size.bytes))
    ∨ t = s := by
  rcases s.target_cases o size with ⟨r, hs, ho, ht⟩ | ⟨h1, h2, h3, ht⟩ | ht
  · rw [State.hostWrite, ht] at h
    cases h
    exact .inl ⟨r, hs, Reg.offset_of_atOffset ho, rfl⟩
  · simp only [State.hostWrite, ht] at h
    split at h
    · cases h
    · cases h
      exact .inr (.inl ⟨h1, h3, Bool.eq_false_iff.mpr ‹_›, rfl⟩)
  · rw [State.hostWrite, ht] at h
    cases h
    exact .inr (.inr rfl)

/-- The pending bits after a `CMD` write (40_command_execution.md R110, R117). -/
theorem State.presentCommand_irqStatus (s : State) (v : Word) :
    (s.presentCommand v).irqStatus
      = s.irqStatus ||| (if s.lc = none then (if s.validate v = .none then 0#3 else errPending) else ovrPending) := by
  rcases s.presentCommand_cases v with ⟨h, e⟩ | ⟨h, hv, e⟩ | ⟨h, hv, op, -, -, e⟩ <;> rw [e]
  · rw [if_neg h]; rfl
  · rw [if_pos h, if_neg hv]; rfl
  · rw [if_pos h, if_pos hv]; simp

/-- What no register write changes. -/
theorem State.writeReg_frame (s : State) (r : Reg) (v : Word) :
    (s.writeReg r v).params = s.params ∧ (s.writeReg r v).mem = s.mem ∧ (s.writeReg r v).seqValid = s.seqValid
    ∧ (s.writeReg r v).prevAddr = s.prevAddr ∧ (s.writeReg r v).prevLen = s.prevLen
    ∧ (s.writeReg r v).deltaCount = s.deltaCount ∧ (s.writeReg r v).inputs = s.inputs := by
  by_cases hc : r = .cmd
  · subst hc
    have h : s.writeReg .cmd v = s.presentCommand v := rfl
    rw [h]
    rcases s.presentCommand_cases v with ⟨-, e⟩ | ⟨-, -, e⟩ | ⟨-, -, op, -, -, e⟩ <;> rw [e] <;>
      exact ⟨rfl, rfl, rfl, rfl, rfl, rfl, rfl⟩
  · cases r <;> first | exact absurd rfl hc | exact ⟨rfl, rfl, rfl, rfl, rfl, rfl, rfl⟩

theorem State.underCommand_eq_false {s : State} {a n : Nat} :
    s.underCommand a n = false ↔ ∀ i < n, s.inFlightBytes (a + i) = false := by
  simp [State.underCommand]

/-! ### Little-endian values -/

@[simp] theorem State.length_hostBytes (s : State) (a n : Nat) : (s.hostBytes a n).length = n := by simp [State.hostBytes]

theorem leValue_lt (bs : List Byte) : leValue bs < 256 ^ bs.length := by
  induction bs with
  | nil => simp [leValue]
  | cons b bs ih =>
    have := b.isLt
    simp only [leValue, List.length_cons, pow_succ]
    omega

/-- Digit `i` of a little-endian value is byte `i`. -/
theorem leValue_digit (bs : List Byte) {i : Nat} (h : i < bs.length) : leValue bs / 256 ^ i % 256 = (byteAt bs i).toNat := by
  induction bs generalizing i with
  | nil => simp at h
  | cons b bs ih =>
    have := b.isLt
    cases i with
    | zero =>
      simp only [leValue, pow_zero, Nat.div_one, byteAt, List.getD, List.getElem?_cons_zero, Option.getD_some]
      omega
    | succ i =>
      have := ih (i := i) (by simpa using h)
      rw [pow_succ, Nat.mul_comm, ← Nat.div_div_eq_div_mul, leValue,
        show (b.toNat + 256 * leValue bs) / 256 = leValue bs by omega, this]
      simp [byteAt, List.getD]

/-- A host read value of FMEM loses nothing when it is cut to 32 bits. -/
theorem State.hostValue_toNat (s : State) (a : Nat) (size : AccessSize) :
    (BitVec.ofNat 32 (leValue (s.hostBytes a size.bytes))).toNat = leValue (s.hostBytes a size.bytes) := by
  have h := leValue_lt (s.hostBytes a size.bytes)
  rw [State.length_hostBytes] at h
  rw [BitVec.toNat_ofNat, Nat.mod_eq_of_lt (lt_of_lt_of_le h (by cases size <;> decide))]

end Sys2Proof.Machine
end

