-- ==== Sys2Proof/Laws/Exec.lean ====
section
/-! SUPPORT. What a completing command can do, said once (`exec_next`), and when it completes (`exec_completes`); the lengths
and the bytes of the frames the commands compute. -/

namespace Sys2Proof.Machine

/-! ### Lengths and bytes of the computed frames -/

@[simp] theorem length_channelPlane (k : CoeffRow) (raw : List Byte) (n : Nat) : (channelPlane k raw n).length = n := by
  simp [channelPlane]

@[simp] theorem length_cscFrame (m : CscMatrix) (raw : List Byte) (n : Nat) : (cscFrame m raw n).length = 3 * n := by
  simp [cscFrame]; omega

@[simp] theorem length_downPlane (p : List Byte) (w h : Nat) : (downPlane p w h).length = h / 2 * (w / 2) := by
  simp [downPlane]

@[simp] theorem length_upPlane (d : List Byte) (w h : Nat) : (upPlane d w h).length = w * h := by simp [upPlane]

@[simp] theorem length_packPlanes (y u v : List Byte) : (packPlanes y u v).length = y.length + u.length + v.length := by
  simp [packPlanes]; omega

theorem length_deltaFrame {cur prev : List Byte} (h : cur.length = prev.length) : (deltaFrame cur prev).length = cur.length := by
  simp [deltaFrame, h]

theorem byteAt_channelPlane (k : CoeffRow) (raw : List Byte) {n i : Nat} (h : i < n) :
    byteAt (channelPlane k raw n) i
      = channelOut k (byteAt raw (3 * i)) (byteAt raw (3 * i + 1)) (byteAt raw (3 * i + 2)) :=
  byteAt_map_range _ h

theorem byteAt_downPlane (p : List Byte) {w h i j : Nat} (hi : i < h / 2) (hj : j < w / 2) :
    byteAt (downPlane p w h) (i * (w / 2) + j) = downCell p w i j := by
  have hlt : i * (w / 2) + j < h / 2 * (w / 2) := by
    calc i * (w / 2) + j < i * (w / 2) + w / 2 := by omega
      _ = (i + 1) * (w / 2) := by ring
      _ ≤ h / 2 * (w / 2) := Nat.mul_le_mul_right _ hi
  rw [downPlane, byteAt_map_range _ hlt, Nat.mul_comm i, Nat.mul_add_div (by omega), Nat.mul_add_mod,
    Nat.div_eq_of_lt hj, Nat.mod_eq_of_lt hj, Nat.add_zero]

theorem byteAt_upPlane (d : List Byte) {w h r x : Nat} (hr : r < h) (hx : x < w) :
    byteAt (upPlane d w h) (r * w + x) = byteAt d (r / 2 * (w / 2) + x / 2) := by
  have hlt : r * w + x < w * h := by
    calc r * w + x < r * w + w := by omega
      _ = w * (r + 1) := by ring
      _ ≤ w * h := Nat.mul_le_mul_left _ hr
  rw [upPlane, byteAt_map_range _ hlt, Nat.mul_comm r, Nat.mul_add_div (by omega), Nat.mul_add_mod,
    Nat.div_eq_of_lt hx, Nat.mod_eq_of_lt hx, Nat.add_zero]

theorem byteAt_deltaFrame {cur prev : List Byte} {i : Nat} (h : i < cur.length) (h' : i < prev.length) :
    byteAt (deltaFrame cur prev) i = byteAt cur i - byteAt prev i := by
  simp [byteAt, deltaFrame, List.getD, h, h']

/-- `tdiv` is core Lean's division truncated toward zero. -/
theorem tdiv_eq (a b : Int) (hb : 0 < b) : tdiv a b = Int.tdiv a b := by
  obtain ⟨n, rfl⟩ := Int.eq_ofNat_of_zero_le hb.le
  have hn : 0 < n := by omega
  rcases Int.natAbs_eq a with h | h
  · generalize a.natAbs = k at h ⊢
    subst h
    cases k with
    | zero => simp [tdiv]
    | succ k => rw [tdiv, Int.sign_eq_one_of_pos (by omega)]; simp; rfl
  · generalize hk : a.natAbs = k at h
    subst h
    cases k with
    | zero => simp [tdiv]
    | succ k =>
      rw [tdiv, Int.sign_eq_neg_one_of_neg (by omega), Int.neg_tdiv, hk, Int.natAbs_natCast, neg_one_mul]
      rfl

/-- `low8` is the residue modulo 256. -/
theorem low8_toNat (v : Int) : ((low8 v).toNat : Int) = v % 256 := by
  rw [low8, BitVec.toNat_ofInt]
  have := Int.emod_nonneg v (b := 256) (by omega)
  norm_num
  omega

theorem mean4_toNat (a b c d : Byte) : (mean4 a b c d).toNat = (a.toNat + b.toNat + c.toNat + d.toNat) / 4 := by
  have := a.isLt
  have := b.isLt
  have := c.isLt
  have := d.isLt
  rw [mean4, BitVec.toNat_ofNat]
  omega

/-! ### Everything a completion can do -/

/-- How many bytes the command writes. -/
def outLength (c : Latched) : Instr → Nat
  | .nop => 0
  | .csc => 3 * c.pixels
  | .sub => 2 * (c.h.toNat / 2 * (c.w.toNat / 2))
  | .pack => c.pixels + 2 * c.quarter
  | .delta => c.len.toNat
  | .ups => 3 * c.pixels
  | .dseq => 0

/-- What the command does to the delta sequence. -/
def sequenceEffect (c : Latched) (s : State) : Instr → State
  | .nop => s
  | .csc => s
  | .sub => s
  | .pack => s
  | .delta => s.sequenceUpdate c
  | .ups => s
  | .dseq => s.sequenceClear

/-- A command that answers a next state has written `outLength` bytes from its destination on, has done its effect on the delta
sequence, and has completed; nothing else. -/
theorem exec_next {i : Instr} {s t : State} (h : exec i s = .next t) :
    ∃ c out, s.lc = some c ∧ out.length = outLength c i
      ∧ (out = [] ∨ c.dst.toNat + out.length ≤ s.params.fmemSize)
      ∧ t = (sequenceEffect c (s.storeBytes c.dst.toNat out) i).complete := by
  cases i with
  | nop =>
    obtain ⟨c, hc, h⟩ := State.withLatched_next h
    cases h
    exact ⟨c, [], hc, rfl, .inl rfl, rfl⟩
  | dseq =>
    obtain ⟨c, hc, h⟩ := State.withLatched_next h
    cases h
    exact ⟨c, [], hc, rfl, .inl rfl, rfl⟩
  | csc =>
    obtain ⟨c, hc, h⟩ := State.withLatched_next h
    obtain ⟨-, h⟩ := State.withBytes_next h
    obtain ⟨hd, h⟩ := State.withStored_next h
    cases h
    exact ⟨c, _, hc, by simp [outLength], .inr hd, rfl⟩
  | sub =>
    obtain ⟨c, hc, h⟩ := State.withLatched_next h
    obtain ⟨-, h⟩ := State.withBytes_next h
    obtain ⟨-, h⟩ := State.withBytes_next h
    obtain ⟨hd, h⟩ := State.withStored_next h
    cases h
    exact ⟨c, _, hc, by simp [outLength]; omega, .inr hd, rfl⟩
  | pack =>
    obtain ⟨c, hc, h⟩ := State.withLatched_next h
    obtain ⟨-, h⟩ := State.withBytes_next h
    obtain ⟨-, h⟩ := State.withBytes_next h
    obtain ⟨-, h⟩ := State.withBytes_next h
    obtain ⟨hd, h⟩ := State.withStored_next h
    cases h
    exact ⟨c, _, hc, by simp [outLength]; omega, .inr hd, rfl⟩
  | ups =>
    obtain ⟨c, hc, h⟩ := State.withLatched_next h
    obtain ⟨-, h⟩ := State.withBytes_next h
    obtain ⟨hd, h⟩ := State.withStored_next h
    cases h
    refine ⟨c, _, hc, ?_, .inr hd, rfl⟩
    have hp : c.w.toNat * c.h.toNat = c.pixels := rfl
    simp [outLength, slicePlanes, hp]
    omega
  | delta =>
    obtain ⟨c, hc, h⟩ := State.withLatched_next h
    obtain ⟨-, h⟩ := State.withBytes_next h
    split at h
    · obtain ⟨-, h⟩ := State.withBytes_next h
      obtain ⟨hd, h⟩ := State.withStored_next h
      cases h
      exact ⟨c, _, hc, by rw [length_deltaFrame (by simp)]; simp [outLength], .inr hd, rfl⟩
    · obtain ⟨hd, h⟩ := State.withStored_next h
      cases h
      exact ⟨c, _, hc, by simp [outLength], .inr hd, rfl⟩

/-- Every completion ends the command and sets `DONE_P`, and touches no other pending bit (40_command_execution.md R114). -/
theorem exec_completes_status {i : Instr} {s t : State} (h : exec i s = .next t) :
    s.lc ≠ none ∧ t.lc = none ∧ t.irqStatus = s.irqStatus ||| donePending := by
  obtain ⟨c, out, hc, -, -, rfl⟩ := exec_next h
  refine ⟨by simp [hc], rfl, ?_⟩
  cases i <;> rfl

theorem exec_params {i : Instr} {s t : State} (h : exec i s = .next t) : t.params = s.params := by
  obtain ⟨c, out, -, -, -, rfl⟩ := exec_next h
  cases i <;> rfl

/-- For a command that passed validation, the bytes written are the destination range (40_command_execution.md R113). -/
theorem outLength_valid {s : State} {c : Latched} (v : s.Valid c) :
    ∀ d ∈ c.dstRange.toList, d = ⟨c.dst.toNat, outLength c c.op⟩ := by
  obtain ⟨h4, hq⟩ := Latched.quarter_even v.w_even v.h_even
  have hl := v.len_eq
  have hq' : c.quarter = c.pixels / 4 := rfl
  intro d hd
  cases hop : c.op <;> simp only [Latched.dstRange, hop, Option.toList, List.mem_singleton, List.not_mem_nil] at hd <;>
    subst hd <;> simp only [outLength, expLen, hop, Span.mk.injEq, true_and] at hl ⊢ <;> omega

/-! ### When a command completes, and what it answers -/

theorem execNop_eq {s : State} {c : Latched} (hc : s.lc = some c) : exec .nop s = .next s.complete :=
  State.withLatched_some _ hc

theorem execDseq_eq {s : State} {c : Latched} (hc : s.lc = some c) : exec .dseq s = .next s.sequenceClear.complete :=
  State.withLatched_some _ hc

theorem execCsc_eq {s : State} {c : Latched} (hc : s.lc = some c)
    (hs : c.src.toNat + 3 * c.pixels ≤ s.params.fmemSize) (hd : c.dst.toNat + 3 * c.pixels ≤ s.params.fmemSize) :
    exec .csc s = .next (s.storeBytes c.dst.toNat
      (cscFrame s.params.cscK (s.mem.readBytes c.src.toNat (3 * c.pixels)) c.pixels)).complete := by
  show execCsc s = _
  rw [execCsc, State.withLatched_some _ hc, State.withBytes_fits _ hs, State.withStored_fits _ (by simpa using hd)]

theorem execSub_eq {s : State} {c : Latched} (hc : s.lc = some c)
    (hs : c.src.toNat + 3 * c.pixels ≤ s.params.fmemSize)
    (hd : c.dst.toNat + 2 * (c.h.toNat / 2 * (c.w.toNat / 2)) ≤ s.params.fmemSize) :
    exec .sub s = .next (s.storeBytes c.dst.toNat
      (downPlane (s.mem.readBytes (c.src.toNat + c.pixels) c.pixels) c.w.toNat c.h.toNat
        ++ downPlane (s.mem.readBytes (c.src.toNat + 2 * c.pixels) c.pixels) c.w.toNat c.h.toNat)).complete := by
  show execSub s = _
  rw [execSub, State.withLatched_some _ hc, State.withBytes_fits _ (by omega), State.withBytes_fits _ (by omega),
    State.withStored_fits _ (by simp; omega)]

theorem execPack_eq {s : State} {c : Latched} (hc : s.lc = some c)
    (hs : c.src.toNat + c.pixels ≤ s.params.fmemSize) (ha : c.aux.toNat + 2 * c.quarter ≤ s.params.fmemSize)
    (hd : c.dst.toNat + (c.pixels + 2 * c.quarter) ≤ s.params.fmemSize) :
    exec .pack s = .next (s.storeBytes c.dst.toNat
      (packPlanes (s.mem.readBytes c.src.toNat c.pixels) (s.mem.readBytes c.aux.toNat c.quarter)
        (s.mem.readBytes (c.aux.toNat + c.quarter) c.quarter))).complete := by
  show execPack s = _
  rw [execPack, State.withLatched_some _ hc, State.withBytes_fits _ hs, State.withBytes_fits _ (by omega),
    State.withBytes_fits _ (by omega), State.withStored_fits _ (by simp; omega)]

/-- The frame `UPS` writes for the packed frame `f` (42_chroma.md R154). -/
def upsFrame (f : List Byte) (n w h : Nat) : List Byte :=
  (slicePlanes f n).y ++ upPlane (slicePlanes f n).u w h ++ upPlane (slicePlanes f n).v w h

theorem execUps_eq {s : State} {c : Latched} (hc : s.lc = some c)
    (hs : c.src.toNat + 3 * c.pixels / 2 ≤ s.params.fmemSize) (hd : c.dst.toNat + 3 * c.pixels ≤ s.params.fmemSize) :
    exec .ups s = .next (s.storeBytes c.dst.toNat
      (upsFrame (s.mem.readBytes c.src.toNat (3 * c.pixels / 2)) c.pixels c.w.toNat c.h.toNat)).complete := by
  have hp : c.w.toNat * c.h.toNat = c.pixels := rfl
  show execUps s = _
  rw [execUps, State.withLatched_some _ hc, State.withBytes_fits _ hs]
  exact State.withStored_fits _ (by simp [slicePlanes, hp]; omega)

theorem execDelta_anchor_eq {s : State} {c : Latched} (hc : s.lc = some c) (hv : s.seqValid = false)
    (hs : c.src.toNat + c.len.toNat ≤ s.params.fmemSize) (hd : c.dst.toNat + c.len.toNat ≤ s.params.fmemSize) :
    exec .delta s = .next ((s.storeBytes c.dst.toNat
      (s.mem.readBytes c.src.toNat c.len.toNat)).sequenceUpdate c).complete := by
  show execDelta s = _
  rw [execDelta, State.withLatched_some _ hc, State.withBytes_fits _ hs, if_neg (by simp [hv]),
    State.withStored_fits _ (by simpa using hd)]

theorem execDelta_difference_eq {s : State} {c : Latched} (hc : s.lc = some c) (hv : s.seqValid = true)
    (hs : c.src.toNat + c.len.toNat ≤ s.params.fmemSize) (hp : s.prevAddr.toNat + c.len.toNat ≤ s.params.fmemSize)
    (hd : c.dst.toNat + c.len.toNat ≤ s.params.fmemSize) :
    exec .delta s = .next ((s.storeBytes c.dst.toNat
      (deltaFrame (s.mem.readBytes c.src.toNat c.len.toNat) (s.mem.readBytes s.prevAddr.toNat c.len.toNat))).sequenceUpdate c).complete := by
  show execDelta s = _
  rw [execDelta, State.withLatched_some _ hc, State.withBytes_fits _ hs, if_pos hv, State.withBytes_fits _ hp,
    State.withStored_fits _ (by rw [length_deltaFrame (by simp)]; simpa using hd)]

end Sys2Proof.Machine
end

