-- ==== Sys2Proof/Laws/PerInstr.lean ====
section
/-! SUPPORT. The families of statements made per instruction (LAWS.json). `EncodedWord`: the command word of an instruction is a
well-formed word (30_encoding.md R93) that the decoder reads back as it, as a table word of 32 bits. -/

namespace Sys2Proof.Laws.EncodedWord

/-- The statement about one instruction. -/
def Statement (i : Instr) : Prop :=
  commandWordWellFormed (encode i) = true ∧ decodeTableWord 32 (encode i).toNat = some i

theorem nop : Statement .nop := by unfold Statement; decide

theorem csc : Statement .csc := by unfold Statement; decide

theorem sub : Statement .sub := by unfold Statement; decide

theorem pack : Statement .pack := by unfold Statement; decide

theorem delta : Statement .delta := by unfold Statement; decide

theorem ups : Statement .ups := by unfold Statement; decide

theorem dseq : Statement .dseq := by unfold Statement; decide

end Sys2Proof.Laws.EncodedWord
end

