-- ==== Sys2Proof/Laws/Step.lean ====
section
/-! SUPPORT. Everything one step can be, said once: the engine's turn, a host read, a host write or a reset. -/

namespace Sys2Proof.Machine

/-- The state a step hands on once the input it runs is taken from the queue. -/
def State.withInputs (s : State) (rest : List Input) : State := { s with inputs := rest }

theorem step_legal {s : State} (h : s.params.legal = true) : step s = s.advance := by simp [step, h]

theorem step_input {s : State} {i : Input} {rest : List Input} (h : s.params.legal = true) (hi : s.inputs = i :: rest) :
    step s = (s.withInputs rest).runInput i := by
  simp [step, h, State.advance, hi, State.withInputs]

theorem step_empty {s : State} (h : s.params.legal = true) (hi : s.inputs = []) : step s = s.engineTurn := by
  simp [step, h, State.advance, hi]

theorem engineTurn_some {s : State} {c : Latched} (h : s.lc = some c) : s.engineTurn = exec c.op s := by
  simp [State.engineTurn, h]

theorem engineTurn_none {s : State} (h : s.lc = none) : s.engineTurn = .next s := by
  simp [State.engineTurn, h]

/-- A step whose input is a host write of a word to a register. -/
theorem step_writeReg {s : State} (r : Reg) {v : Word} {rest : List Input} (h : s.params.legal = true)
    (hi : s.inputs = .write r.offset .b4 v :: rest) : step s = .next ((s.withInputs rest).writeReg r v) := by
  rw [step_input h hi]
  show State.hostWrite _ r.offset .b4 v = _
  rw [State.hostWrite, State.target_register]

/-- A step whose input is a host read of a register. -/
theorem step_readReg {s : State} (r : Reg) {rest : List Input} (h : s.params.legal = true)
    (hi : s.inputs = .read r.offset .b4 :: rest) :
    step s = .next { s with inputs := rest, lastRead := some (s.readReg r) } := by
  rw [step_input h hi]
  show Host.Outcome.next (State.hostRead _ r.offset .b4) = _
  rw [State.hostRead, State.target_register]
  cases r <;> rfl

/-- What an engine's turn can answer. -/
theorem engineTurn_next {s t : State} (h : s.engineTurn = .next t) :
    (s.lc = none ∧ t = s) ∨ ∃ c, s.lc = some c ∧ exec c.op s = .next t := by
  cases hl : s.lc with
  | none => rw [engineTurn_none hl] at h; cases h; exact .inl ⟨rfl, rfl⟩
  | some c => exact .inr ⟨c, rfl, by rwa [engineTurn_some hl] at h⟩

/-- Everything a step that answers a next state can be (00_scope.md R12). -/
theorem step_next {s t : State} (h : step s = .next t) :
    s.params.legal = true ∧
    ((∃ rest, (s.inputs = [] ∧ rest = [] ∨ s.inputs = .engine :: rest) ∧ (s.withInputs rest).engineTurn = .next t)
    ∨ (∃ o size rest, s.inputs = .read o size :: rest ∧ t = (s.withInputs rest).hostRead o size)
    ∨ (∃ o size v rest, s.inputs = .write o size v :: rest ∧ (s.withInputs rest).hostWrite o size v = .next t)
    ∨ ∃ rest, s.inputs = .reset :: rest ∧ t = (s.withInputs rest).resetInput) := by
  by_cases hp : s.params.legal = true
  · refine ⟨hp, ?_⟩
    cases hi : s.inputs with
    | nil =>
      have hs : s.withInputs [] = s := by rw [State.withInputs, ← hi]
      exact .inl ⟨[], .inl ⟨rfl, rfl⟩, by rw [hs, ← step_empty hp hi, h]⟩
    | cons i rest =>
      rw [step_input hp hi] at h
      cases i with
      | read o size => cases h; exact .inr (.inl ⟨o, size, rest, rfl, rfl⟩)
      | write o size v => exact .inr (.inr (.inl ⟨o, size, v, rest, rfl, h⟩))
      | engine => exact .inl ⟨rest, .inr rfl, h⟩
      | reset => cases h; exact .inr (.inr (.inr ⟨rest, rfl, rfl⟩))
  · simp [step, hp] at h

/-! ### Runs -/

theorem run_zero (s : State) : Host.Core.run core 0 s = .next s := rfl

theorem run_succ {s s' : State} (k : Nat) (h : step s = .next s') : Host.Core.run core (k + 1) s = Host.Core.run core k s' := by
  have h' : core.step s = .next s' := h
  simp [Host.Core.run, h']

theorem run_one (s : State) : Host.Core.run core 1 s = step s := by
  have h : core.step s = step s := rfl
  simp only [Host.Core.run, h]
  cases step s <;> rfl

end Sys2Proof.Machine
end

