-- ==== Sys2Proof/Laws/Safety.lean ====
section
/-! SUPPORT. Lemmas about the invariant and the host discipline: what they read of the state, and the updates that keep
them. -/

namespace Sys2Proof.Machine

/-- The frame command in flight is valid under the invariant. -/
theorem State.Inv.valid {s : State} {c : Latched} (h : s.Inv) (hc : s.lc = some c) (hf : isFrameCommand c.op = true) :
    s.Valid c :=
  (State.validateLatched_frame hf).mp (h.latched_valid c hc)

/-- The invariant reads the parameters, FMEM, the sequence state and the command in flight only. -/
theorem State.Inv.congr {s t : State} (h : s.Inv) (hp : t.params = s.params) (hm : t.mem = s.mem)
    (hv : t.seqValid = s.seqValid) (ha : t.prevAddr = s.prevAddr) (hl : t.prevLen = s.prevLen)
    (hd : t.deltaCount = s.deltaCount) (hc : t.lc = s.lc) : t.Inv where
  params_legal := by rw [hp]; exact h.params_legal
  mem_wf := by rw [hm]; exact h.mem_wf
  mem_within := by rw [hm, hp]; exact h.mem_within
  seq_clear := by rw [hv, ha, hl, hd]; exact h.seq_clear
  prev_fits := by rw [hv, ha, hl, hp]; exact h.prev_fits
  latched_valid := fun c hc' => (State.validateLatched_congr c hp hv ha hl).trans (h.latched_valid c (hc ▸ hc'))

theorem State.Inv.withInputs {s : State} (h : s.Inv) (rest : List Input) : (s.withInputs rest).Inv :=
  h.congr rfl rfl rfl rfl rfl rfl rfl

theorem State.Inv.storeBytes {s : State} (h : s.Inv) (a : Nat) (out : List Byte)
    (hf : a + out.length ≤ s.params.fmemSize) : (s.storeBytes a out).Inv where
  params_legal := h.params_legal
  mem_wf := Memory.writeBytes_wf _ _ h.mem_wf
  mem_within := Memory.writeBytes_within _ _ h.mem_within hf
  seq_clear := h.seq_clear
  prev_fits := h.prev_fits
  latched_valid := fun c hc => (State.validateLatched_congr c rfl rfl rfl rfl).trans (h.latched_valid c hc)

theorem State.Inv.complete {s : State} (h : s.Inv) : s.complete.Inv where
  params_legal := h.params_legal
  mem_wf := h.mem_wf
  mem_within := h.mem_within
  seq_clear := h.seq_clear
  prev_fits := h.prev_fits
  latched_valid := fun c hc => by cases hc

/-- The destination of the command in flight lies inside FMEM (40_command_execution.md R111). -/
theorem State.Inv.dst_fits {s : State} {c : Latched} {r : Span} (h : s.Inv) (hc : s.lc = some c) (hr : c.dstRange = some r) :
    r.base + r.len ≤ s.params.fmemSize := by
  have hf : isFrameCommand c.op = true := by
    cases hop : c.op <;> simp [Latched.dstRange, hop] at hr <;> rfl
  exact (h.valid hc hf).fits r (by simp [hr])

/-- The host discipline reads the command in flight, the sequence state and the parameters only. -/
theorem State.respects_congr {s t : State} (hc : t.lc = s.lc) (hp : t.params = s.params) (hv : t.seqValid = s.seqValid)
    (ha : t.prevAddr = s.prevAddr) (hl : t.prevLen = s.prevLen) (i : Input) : t.respects i = s.respects i := by
  have hf : ∀ a, t.inFlightBytes a = s.inFlightBytes a := by
    intro a
    unfold State.inFlightBytes
    rw [hc]
    cases s.lc with
    | none => rfl
    | some c => simp only [State.srcRanges_congr c hv ha hl]
  cases i with
  | write o size v =>
    have ht : t.target o size = s.target o size := by unfold State.target; rw [hp]
    have hu : ∀ a n, t.underCommand a n = s.underCommand a n := by intro a n; unfold State.underCommand; simp only [hf]
    unfold State.respects
    simp only [ht, hu]
  | read | engine | reset => rfl

end Sys2Proof.Machine
end

