-- ==== Sys2Proof/Machine/Assembler.lean ====
section
/-! DEFINITION. The assembler of 30_encoding.md R96, R97: statements and pseudo-instructions as the host accesses they
expand to. It is a convenience of the host's side; the block sees the accesses only (R97). -/

namespace Sys2Proof.Machine

/-- One statement of 30_encoding.md R96, R97. -/
inductive Stmt where
  /-- `wr32 REG, imm`. -/
  | wrReg (r : Reg) (imm : Word)
  /-- `rd32 REG`. -/
  | rdReg (r : Reg)
  /-- `wr8`, `wr16`, `wr32` `M[a], imm`. -/
  | wrMem (size : AccessSize) (a : Nat) (imm : Word)
  /-- `rd8`, `rd16`, `rd32` `M[a]`. -/
  | rdMem (size : AccessSize) (a : Nat)
  /-- `cmd MNEMONIC`. -/
  | cmd (op : Instr)
  /-- `cmd.raw imm`. -/
  | cmdRaw (imm : Word)
  /-- `setdim W, H`. -/
  | setdim (w h : Nat)
  /-- `poll`. -/
  | poll
  /-- `fill M[a], b0 b1 .. bk`. -/
  | fill (a : Nat) (bytes : List Byte)
  /-- `csc dst, src`. -/
  | csc (dst src : Word)
  /-- `sub dst, src`. -/
  | sub (dst src : Word)
  /-- `pack dst, src, aux`. -/
  | pack (dst src aux : Word)
  /-- `delta dst, src`. -/
  | delta (dst src : Word)
  /-- `ups dst, src`. -/
  | ups (dst src : Word)
  /-- `dseq`. -/
  | dseq
  /-- `nop`. -/
  | nop
  deriving DecidableEq, Repr

/-- `wr32 REG, imm` (30_encoding.md R96). -/
def wr32 (r : Reg) (imm : Word) : Input := .write r.offset .b4 imm

/-- The aperture offset of FMEM byte `a` (20_memory.md R61). DESIGN CHOICE, unsafe: for `a` of 2^24 or more, where the sum leaves
the aperture and 30_encoding.md R96 does not say what the statement does, it is taken modulo 2^25, so that such an access falls
into the register space or the reserved offsets (log entry 15). -/
def fmemOffset (a : Nat) : BitVec 25 := BitVec.ofNat 25 (fmemWindow + a)

/-- `cmd MNEMONIC` (30_encoding.md R96). -/
def cmdWrite (op : Instr) : Input := wr32 .cmd (encode op)

/-- `poll`: the host reads `STATUS` until `BUSY` is 0 (30_encoding.md R97). It ends in a read after the completion; here the
engine's turn falls just before its last read, the only one listed (95_test_vectors.md section 4; log entry 11). -/
def pollInputs : List Input := [.engine, .read Reg.status.offset .b4]

/-- `fill` (30_encoding.md R97): one byte write per byte, at rising addresses. -/
def fillInputs (a : Nat) : List Byte → List Input
  | [] => []
  | b :: bs => .write (fmemOffset a) .b1 (b.setWidth 32) :: fillInputs (a + 1) bs

/-- The accesses that start a frame command over `SRC_LEN = len` bytes (30_encoding.md R97). DESIGN CHOICE, unsafe: a length over
32 bits is written modulo 2^32; R97 does not say what the assembler writes then (log entry 16). -/
def frameCommand (op : Instr) (dst src : Word) (len : Nat) : List Input :=
  [wr32 .srcAddr src, wr32 .srcLen (BitVec.ofNat 32 len), wr32 .dstAddr dst, cmdWrite op] ++ pollInputs

/-- The accesses of one statement, with the assembler's current dimensions (30_encoding.md R96, R97). DESIGN CHOICE, unsafe: a
`setdim` operand or a computed length over 32 bits is written modulo 2^32, and `3*W*H/2` of an odd product is rounded down; R97
says neither (log entry 16). -/
def Stmt.expand (w h : Nat) : Stmt → List Input
  | .wrReg r imm => [wr32 r imm]
  | .rdReg r => [.read r.offset .b4]
  | .wrMem size a imm => [.write (fmemOffset a) size imm]
  | .rdMem size a => [.read (fmemOffset a) size]
  | .cmd op => [cmdWrite op]
  | .cmdRaw imm => [wr32 .cmd imm]
  | .setdim w' h' => [wr32 .width (BitVec.ofNat 32 w'), wr32 .height (BitVec.ofNat 32 h')]
  | .poll => pollInputs
  | .fill a bytes => fillInputs a bytes
  | .csc dst src => frameCommand .csc dst src (3 * w * h)
  | .sub dst src => frameCommand .sub dst src (3 * w * h)
  | .pack dst src aux =>
    [wr32 .srcAddr src, wr32 .srcLen (BitVec.ofNat 32 (3 * w * h)), wr32 .auxAddr aux, wr32 .dstAddr dst, cmdWrite .pack]
      ++ pollInputs
  | .delta dst src => frameCommand .delta dst src (3 * w * h / 2)
  | .ups dst src => frameCommand .ups dst src (3 * w * h / 2)
  | .dseq => cmdWrite .dseq :: pollInputs
  | .nop => cmdWrite .nop :: pollInputs

/-- The accesses of a program: `setdim` sets the dimensions the later pseudo-instructions use (30_encoding.md R97). DESIGN CHOICE:
the dimensions before the first `setdim`, which R97 does not give, are the arguments `w` and `h` (log entry 16). -/
def assemble (w h : Nat) : List Stmt → List Input
  | [] => []
  | .setdim w' h' :: rest => Stmt.expand w h (.setdim w' h') ++ assemble w' h' rest
  | st :: rest => Stmt.expand w h st ++ assemble w h rest

end Sys2Proof.Machine
end

