-- ==== Sys2Proof/Tests/Slice0.lean ====
section
/-! SUPPORT. The model's own tests, each one step or one operation on a small state, with results taken from spec/
(95_test_vectors.md unless another file is named), and for every obligation with hypotheses a witness that meets them. -/

namespace Sys2Proof.Tests

open Sys2Proof.Machine Sys2Proof.Claims

/-! ### WellFormed refuses ill-formed data, and Decode refuses by name -/

theorem test_illformed_reserved_opcode :
    commandWordWellFormed 0x00000007#32 = false ∧ commandWordWellFormed 0x000000FF#32 = false
    ∧ decode 0x00000007#32 = .error .reservedOpcode ∧ decode 0x000000FF#32 = .error .reservedOpcode := by decide

theorem test_illformed_reserved_bits :
    commandWordWellFormed 0x00000101#32 = false ∧ commandWordWellFormed 0x80000001#32 = false
    ∧ decode 0x00000101#32 = .error .reservedBits ∧ decode 0x80000001#32 = .error .reservedBits := by decide

theorem test_wellformed_words :
    commandWordWellFormed 0x00000000#32 = true ∧ commandWordWellFormed 0x00000006#32 = true
    ∧ Instr.csc.wellFormed = true := by decide

theorem test_illformed_params :
    Params.legal { Params.default with fmemSize := 0 } = false
    ∧ Params.legal { Params.default with fmemSize := 2 ^ 24 + 1 } = false := by decide

theorem test_wellformed_params :
    Params.legal { Params.default with fmemSize := 1 } = true
    ∧ Params.legal { Params.default with fmemSize := 2 ^ 24 } = true ∧ Params.default.legal = true := by decide

/-! ### Decoding, the word written bit by bit: `RSV` in bits [31:8], `OPC` in bits [7:0] (30_encoding.md R90, R92) -/

theorem test_decode_nop : decode 0b000000000000000000000000_00000000#32 = .ok .nop := by decide
theorem test_decode_csc : decode 0b000000000000000000000000_00000001#32 = .ok .csc := by decide
theorem test_decode_sub : decode 0b000000000000000000000000_00000010#32 = .ok .sub := by decide
theorem test_decode_pack : decode 0b000000000000000000000000_00000011#32 = .ok .pack := by decide
theorem test_decode_delta : decode 0b000000000000000000000000_00000100#32 = .ok .delta := by decide
theorem test_decode_ups : decode 0b000000000000000000000000_00000101#32 = .ok .ups := by decide
theorem test_decode_dseq : decode 0b000000000000000000000000_00000110#32 = .ok .dseq := by decide

/-! ### Small states -/

/-- The default parameters with a small FMEM. -/
def smallParams : Params := { Params.default with fmemSize := 64 }

/-- An idle block with `bytes` at FMEM 0. -/
def idle (bytes : List Byte) : State := State.powerUp smallParams (Memory.writeBytes [] 0 bytes)

/-- A latched command. -/
def latched (op : Instr) (w h len src aux dst : Nat) : Latched :=
  { op := op, w := BitVec.ofNat 16 w, h := BitVec.ofNat 16 h, src := BitVec.ofNat 32 src, len := BitVec.ofNat 32 len
    aux := BitVec.ofNat 32 aux, dst := BitVec.ofNat 32 dst }

/-- A block with the command `c` in flight and `bytes` at FMEM 0. -/
def inFlight (c : Latched) (bytes : List Byte) : State := { idle bytes with lc := some c }

/-- An idle block whose operand registers are set. -/
def ready (w h len src dst aux : Nat) (bytes : List Byte) : State :=
  { idle bytes with
    width := BitVec.ofNat 16 w, height := BitVec.ofNat 16 h, srcAddr := BitVec.ofNat 32 src
    srcLen := BitVec.ofNat 32 len, auxAddr := BitVec.ofNat 32 aux, dstAddr := BitVec.ofNat 32 dst }

/-- The `n` FMEM bytes at `a` after a step, none if it stopped. -/
def bytesAfter (r : Result) (a n : Nat) : List Byte :=
  match r with
  | .next t => t.mem.readBytes a n
  | .fault _ => []
  | .refused _ => []

/-- A field of the next state. -/
def after {α : Type} (r : Result) (f : State → α) : Option α :=
  match r with
  | .next t => some (f t)
  | .fault _ => none
  | .refused _ => none

/-! ### One step per command -/

/-- NP1. -/
theorem test_nop_completes :
    after (step (inFlight (latched .nop 3 0 99 0 0 0) [1, 2])) id = some { idle [1, 2] with irqStatus := 1#3 } := by decide

/-- F1. -/
theorem test_csc_frame :
    bytesAfter (step (inFlight (latched .csc 2 2 12 0 0 16)
      [0x00, 0x00, 0x00, 0xFF, 0xFF, 0xFF, 0xFF, 0x00, 0x00, 0x00, 0xFF, 0x00])) 16 12
    = [0x00, 0xFF, 0x4C, 0x95, 0x80, 0x72, 0x54, 0x2B, 0x80, 0x7F, 0xFF, 0x15] := by decide

/-- K4: a product that truncates toward zero and wraps. -/
theorem test_csc_wraps :
    channelOut ⟨-10000, 0, 0, 0⟩ 3 3 3 = 253 ∧ channelOut ⟨0, -5000, 0, 0⟩ 3 3 3 = 255
    ∧ channelOut ⟨0, 0, 25000, 0⟩ 3 3 3 = 7 := by decide

/-- B6. -/
theorem test_sub_means :
    bytesAfter (step (inFlight (latched .sub 4 2 24 0 0 32)
      [0x00, 0xFF, 0x4C, 0x95, 0x1D, 0x80, 0x12, 0x8C, 0x80, 0x72, 0x54, 0x2B, 0xF2, 0x79, 0x85, 0x97,
       0x80, 0x7F, 0xFF, 0x15, 0x6B, 0x7F, 0x7A, 0x62])) 32 4
    = [0x97, 0x66, 0x7A, 0x7C] := by decide

/-- B5. -/
theorem test_sub_raster_order :
    downPlane [0, 1, 2, 3, 4, 5, 6, 7, 8, 9, 10, 11, 12, 13, 14, 15] 4 4 = [2, 4, 10, 12] := by decide

/-- PK2. -/
theorem test_pack_concatenates :
    bytesAfter (step (inFlight (latched .pack 4 2 24 0 8 32)
      [0x00, 0xFF, 0x4C, 0x95, 0x1D, 0x80, 0x12, 0x8C, 0x97, 0x66, 0x7A, 0x7C])) 32 12
    = [0x00, 0xFF, 0x4C, 0x95, 0x1D, 0x80, 0x12, 0x8C, 0x97, 0x66, 0x7A, 0x7C] := by decide

/-- P3u. -/
theorem test_ups_replicates :
    bytesAfter (step (inFlight (latched .ups 4 2 12 0 0 32)
      [0x00, 0xFF, 0x4C, 0x95, 0x1D, 0x80, 0x12, 0x8C, 0x97, 0x66, 0x7A, 0x7C])) 32 24
    = [0x00, 0xFF, 0x4C, 0x95, 0x1D, 0x80, 0x12, 0x8C, 0x97, 0x97, 0x66, 0x66, 0x97, 0x97, 0x66, 0x66,
       0x7A, 0x7A, 0x7C, 0x7C, 0x7A, 0x7A, 0x7C, 0x7C] := by decide

/-- P2u. -/
theorem test_ups_raster_order :
    upPlane [1, 2, 3, 4] 4 4 = [1, 1, 2, 2, 1, 1, 2, 2, 3, 3, 4, 4, 3, 3, 4, 4] := by decide

/-- The second `DELTA` of the three-frame sequence of section 2.8, with DL7's counter. -/
def laterDelta : State :=
  { inFlight (latched .delta 2 2 6 6 0 16) [0x0A, 0x00, 0xFF, 0x80, 0x01, 0x02, 0x05, 0xFF, 0x00, 0x80, 0x01, 0x03] with
    seqValid := true, prevAddr := 0, prevLen := 6, deltaCount := 0xFFFFFFFF }

theorem test_delta_difference :
    bytesAfter (step laterDelta) 16 6 = [0xFB, 0xFF, 0x01, 0x00, 0x00, 0x01]
    ∧ after (step laterDelta) (fun t => (t.seqValid, t.prevAddr, t.prevLen, t.deltaCount)) = some (true, 6, 6, 0) := by decide

/-- The first `DELTA` of that sequence. -/
def firstDelta : State := inFlight (latched .delta 2 2 6 0 0 16) [0x0A, 0x00, 0xFF, 0x80, 0x01, 0x02]

theorem test_delta_anchor :
    bytesAfter (step firstDelta) 16 6 = [0x0A, 0x00, 0xFF, 0x80, 0x01, 0x02]
    ∧ after (step firstDelta) (fun t => (t.seqValid, t.prevAddr, t.prevLen, t.deltaCount)) = some (true, 0, 6, 1) := by decide

/-- DL5. -/
theorem test_dseq_clears :
    after (step { inFlight (latched .dseq 3 0 7 0 0 0) [9] with
      seqValid := true, prevAddr := 6, prevLen := 6, deltaCount := 3 }) id
    = some { idle [9] with irqStatus := 1#3 } := by decide

/-! ### Acceptance (section 2.10) -/

/-- E5, E6, E8, E10 to E12: the order of the causes. -/
theorem test_first_cause :
    (ready 3 0 0 0 32 0 []).validate 1 = .zeroDimension ∧ (ready 3 2 0 0 32 0 []).validate 1 = .oddDimension
    ∧ (ready 4 2 12 0 0xFFFFFFFF 0 []).validate 1 = .dimensionMismatch
    ∧ (ready 4 2 24 0 40 0 []).validate 1 = .none ∧ (ready 4 2 24 0 41 0 []).validate 1 = .addrRange
    ∧ (ready 4 2 24 54 44 0 []).validate 1 = .addrRange := by decide

/-- E13, E14, E18, E19. -/
theorem test_overlap :
    (ready 4 2 24 0 23 0 []).validate 1 = .overlap ∧ (ready 4 2 24 0 24 0 []).validate 1 = .none
    ∧ (ready 4 2 24 0 32 4 []).validate 3 = .none ∧ (ready 4 2 24 0 24 28 []).validate 3 = .overlap := by decide

/-- E34: a command while busy is dropped. -/
theorem test_overrun :
    after (step { inFlight (latched .nop 0 0 0 0 0 0) [] with inputs := [wr32 .cmd 7] }) id
    = some { inFlight (latched .nop 0 0 0 0 0 0) [] with irqStatus := 0b100#3 } := by decide

/-! ### Host accesses (section 2.11) -/

/-- H4, H10. -/
theorem test_register_fields :
    after (step { idle [] with inputs := [wr32 .width 0x12345678] }) (fun t => t.width) = some 0x5678#16
    ∧ after (step { idle [] with inputs := [wr32 .status 7] }) id = some (idle []) := by decide

/-- H6. -/
theorem test_write_one_to_clear :
    after (step { idle [] with irqStatus := 7, inputs := [wr32 .irqStatus 5] }) (fun t => t.irqStatus) = some 2#3 := by decide

/-- H12. -/
theorem test_little_endian :
    bytesAfter (step { idle [] with inputs := [.write (fmemOffset 16) .b4 0x11223344] }) 16 4 = [0x44, 0x33, 0x22, 0x11]
    ∧ after (step { idle [0x44, 0x33, 0x22, 0x11] with inputs := [.read (fmemOffset 2) .b2] }) (fun t => t.lastRead)
      = some (some 0x1122#32) := by decide

/-- H11, H14, H15, H16. -/
theorem test_ignored_reads :
    ∀ o ∈ [(0x08#25, AccessSize.b2), (0x0A#25, .b4), (0x40#25, .b4), (0x100#25, .b4), (fmemOffset 17, .b2), (fmemOffset 64, .b1)],
      after (step { idle [7] with inputs := [.read o.1 o.2] }) (fun t => t.lastRead) = some (some 0) := by decide

/-! ### Reset (section 2.12) and the placing of an instruction -/

/-- Z4. -/
theorem test_reset_lowers_irq :
    (State.irq { idle [5] with irqStatus := 1, irqEn := 1 }) = true
    ∧ after (step { idle [5] with irqStatus := 1, irqEn := 1, width := 4, inputs := [.reset] }) id = some (idle [5]) := by decide

theorem test_placed_word_runs :
    after (step (State.reset.withFetchWord 32 0x00000006)) id = some { State.reset with irqStatus := 1#3 }
    ∧ after (step (State.reset.withFetchWord 32 0x00000107)) (fun t => t.errCause) = some .illegalCmd := by decide

/-- P5, statement 2, as the assembler expands it (30_encoding.md R96). -/
theorem test_assembler :
    assemble 0 0 [.cmd .nop, .rdReg .irqStatus] = [.write 0x20#25 .b4 0, .read 0x30#25 .b4] := by decide

/-! ### Witnesses: for every statement with hypotheses, data that meets all of them -/

/-- `SpecWords…`, `EachCommand…`, `IrqIs…`, `SliceAndPack…` and the like have no hypotheses on a state. -/
theorem witness_EncodedCommandDecodesBack : Instr.ups.wellFormed = true := by decide

/-- A write of `v` to `CMD` comes next, with `c` in flight or nothing. -/
def cmdNext (c : Option Latched) (v : Word) : State := { idle [] with lc := c, inputs := [.write 0x20#25 .b4 v] }

/-- Both clauses, at the least reserved opcode and at the least and the greatest reserved bit. -/
theorem witness_IllegalWordIsRejectedOrDropped :
    (cmdNext none 7).params.legal = true ∧ (cmdNext none 7).lc = none ∧ 0x07 ≤ (7#32).toNat % 256
    ∧ (cmdNext none 7).inputs = [.write 0x20#25 .b4 7] ∧ (0x100#32).toNat / 256 ≠ 0 ∧ (0x80000006#32).toNat / 256 ≠ 0
    ∧ (cmdNext (some (latched .nop 0 0 0 0 0 0)) 0x100).lc ≠ none := by decide

theorem witness_EngineStepPerformsTheLatchedCommand :
    firstDelta.params.legal = true ∧ firstDelta.lc = some (latched .delta 2 2 6 0 0 16) ∧ firstDelta.inputs = []
    ∧ State.inputs { firstDelta with inputs := [.engine] } = [.engine] := by decide

theorem witness_PlacedWordIsPerformedByTheNextStep :
    State.reset.params.legal = true ∧ decodeTableWord 32 6 = some .dseq ∧ State.reset.inputs = []
    ∧ (cmdNext none 1).inputs ≠ [] := by decide

/-- A `CSC` at its range boundary (E10), about to be written to `CMD`. -/
def cscNext : State := { ready 4 2 24 0 40 0 [] with inputs := [.write 0x20#25 .b4 1] }

theorem witness_AcceptedWordRunsAsDecoded :
    cscNext.params.legal = true ∧ cscNext.lc = none ∧ decode 1#32 = .ok .csc ∧ cscNext.validate 1 = .none
    ∧ cscNext.inputs = [.write 0x20#25 .b4 1] := by decide

theorem witness_IdleBlockNeverActsByItself :
    (idle []).params.legal = true ∧ (idle []).lc = none ∧ (idle []).inputs = []
    ∧ State.inputs { idle [] with inputs := [.engine] } = [.engine] := by decide

theorem witness_IllegalFmemSizeIsRefused :
    (State.powerUp { Params.default with fmemSize := 0 } []).params.fmemSize = 0
    ∧ 2 ^ 24 < (State.powerUp { Params.default with fmemSize := 2 ^ 24 + 1 } []).params.fmemSize := by decide

theorem witness_NopOnlyCompletes : (inFlight (latched .nop 0 0 0 0 0 0) []).lc = some (latched .nop 0 0 0 0 0 0) := by decide

theorem witness_DseqClearsTheSequence :
    (inFlight (latched .dseq 0 0 0 0 0 0) []).lc = some (latched .dseq 0 0 0 0 0 0) := by decide

/-- A destination that ends exactly at `FMEM_SIZE` = 64. -/
theorem witness_CscWritesThePlanarFrame :
    let c := latched .csc 2 2 12 0 0 52
    let s := inFlight c [1, 2]
    s.lc = some c ∧ s.mem.wf = true ∧ c.src.toNat + 3 * c.pixels ≤ s.params.fmemSize
      ∧ c.dst.toNat + 3 * c.pixels ≤ s.params.fmemSize ∧ 3 < c.pixels := by decide

theorem witness_SubWritesTheBlockMeans :
    let c := latched .sub 4 2 24 0 0 60
    let s := inFlight c [1, 2]
    s.lc = some c ∧ s.mem.wf = true ∧ c.w.toNat % 2 = 0 ∧ c.h.toNat % 2 = 0
      ∧ c.src.toNat + 3 * c.pixels ≤ s.params.fmemSize ∧ c.dst.toNat + 2 * (c.pixels / 4) ≤ s.params.fmemSize
      ∧ 0 < c.h.toNat / 2 ∧ 1 < c.w.toNat / 2 := by decide

theorem witness_UpsReplicatesTheChromaCells :
    let c := latched .ups 4 2 12 0 0 40
    let s := inFlight c [1, 2]
    s.lc = some c ∧ s.mem.wf = true ∧ c.w.toNat % 2 = 0 ∧ c.h.toNat % 2 = 0
      ∧ c.src.toNat + 3 * c.pixels / 2 ≤ s.params.fmemSize ∧ c.dst.toNat + 3 * c.pixels ≤ s.params.fmemSize
      ∧ 1 < c.h.toNat ∧ 3 < c.w.toNat := by decide

theorem witness_PackConcatenatesThePlanes :
    let c := latched .pack 4 2 24 0 40 52
    let s := inFlight c [1, 2]
    s.lc = some c ∧ s.mem.wf = true ∧ c.w.toNat % 2 = 0 ∧ c.h.toNat % 2 = 0
      ∧ c.src.toNat + 3 * c.pixels ≤ s.params.fmemSize ∧ c.aux.toNat + 2 * (c.pixels / 4) ≤ s.params.fmemSize
      ∧ c.dst.toNat + 3 * c.pixels / 2 ≤ s.params.fmemSize ∧ 1 < c.pixels / 4 := by decide

theorem witness_FirstDeltaStoresTheAnchor :
    let c := latched .delta 2 2 6 0 0 16
    firstDelta.lc = some c ∧ firstDelta.mem.wf = true ∧ firstDelta.seqValid = false ∧ c.len.toNat = 3 * c.pixels / 2
      ∧ c.src.toNat + c.len.toNat ≤ firstDelta.params.fmemSize ∧ c.dst.toNat + c.len.toNat ≤ firstDelta.params.fmemSize
      ∧ 5 < c.len.toNat := by decide

theorem witness_LaterDeltaStoresTheDifference :
    let c := latched .delta 2 2 6 6 0 16
    laterDelta.lc = some c ∧ laterDelta.mem.wf = true ∧ laterDelta.seqValid = true ∧ c.len.toNat = 3 * c.pixels / 2
      ∧ laterDelta.prevLen = c.len ∧ c.src.toNat + c.len.toNat ≤ laterDelta.params.fmemSize
      ∧ c.dst.toNat + c.len.toNat ≤ laterDelta.params.fmemSize
      ∧ laterDelta.prevAddr.toNat + laterDelta.prevLen.toNat ≤ laterDelta.params.fmemSize := by decide

/-- Both sides of the equivalence occur: a uniform and a mixed block (B1). -/
theorem witness_UpsamplingReturnsTheBlockMean :
    ([10, 11, 12, 13] : List Byte).length = 2 * 2 ∧ upPlane (downPlane [10, 11, 12, 13] 2 2) 2 2 ≠ [10, 11, 12, 13]
    ∧ upPlane (downPlane [7, 7, 7, 7] 2 2) 2 2 = [7, 7, 7, 7] := by decide

theorem witness_SliceAndPackUndoEachOther :
    4 % 4 = 0 ∧ ([1, 2, 3, 4, 5, 6] : List Byte).length = 3 * 4 / 2
    ∧ ([1, 2, 3, 4] : List Byte).length = 4 ∧ ([5] : List Byte).length = 4 / 4 := by decide

/-- The frames of section 2.8, with the written bytes the table gives. -/
theorem witness_DeltaSequenceDecodesToItsSources :
    (∀ f ∈ ([[0x0A, 0x00, 0xFF, 0x80, 0x01, 0x02], [0x05, 0xFF, 0x00, 0x80, 0x01, 0x03]] : List (List Byte)), f.length = 6)
    ∧ codeFrames [[0x0A, 0x00, 0xFF, 0x80, 0x01, 0x02], [0x05, 0xFF, 0x00, 0x80, 0x01, 0x03]]
      = [[0x0A, 0x00, 0xFF, 0x80, 0x01, 0x02], [0xFB, 0xFF, 0x01, 0x00, 0x00, 0x01]] := by decide

/-! `ValidationReportsTheFirstCause`, one witness per clause. -/

theorem witness_Validation_undecodable_and_frameless :
    decode 7#32 = .error .reservedOpcode ∧ decode 0#32 = .ok .nop ∧ decode 6#32 = .ok .dseq ∧ decode 1#32 = .ok .csc
    ∧ decode 4#32 = .ok .delta := by decide

theorem witness_Validation_zeroDimension : zeroDimension (ready 3 0 0 0 32 0 []) := by
  unfold zeroDimension; decide

theorem witness_Validation_oddDimension : ¬ zeroDimension (ready 3 2 0 0 32 0 []) ∧ oddDimension (ready 3 2 0 0 32 0 []) := by
  unfold zeroDimension oddDimension; decide

/-- A `CSC` one byte short, and a `DELTA` whose previous frame has another length (E23). -/
theorem witness_Validation_dimensionMismatch :
    (¬ zeroDimension (ready 4 2 23 0 32 0 []) ∧ ¬ oddDimension (ready 4 2 23 0 32 0 [])
      ∧ dimensionMismatch (ready 4 2 23 0 32 0 []) .csc)
    ∧ dimensionMismatch { ready 2 2 6 0 32 0 [] with seqValid := true, prevLen := 12 } .delta := by
  unfold zeroDimension oddDimension dimensionMismatch expectedLength; decide

/-- One byte too high. -/
theorem witness_Validation_addrRange :
    ¬ zeroDimension (ready 4 2 24 0 41 0 []) ∧ ¬ oddDimension (ready 4 2 24 0 41 0 [])
    ∧ ¬ dimensionMismatch (ready 4 2 24 0 41 0 []) .csc ∧ addrRange (ready 4 2 24 0 41 0 []) .csc := by
  unfold zeroDimension oddDimension dimensionMismatch expectedLength addrRange; decide

/-- One shared byte (E13). -/
theorem witness_Validation_overlap :
    ¬ zeroDimension (ready 4 2 24 0 23 0 []) ∧ ¬ oddDimension (ready 4 2 24 0 23 0 [])
    ∧ ¬ dimensionMismatch (ready 4 2 24 0 23 0 []) .csc ∧ ¬ addrRange (ready 4 2 24 0 23 0 []) .csc
    ∧ overlap (ready 4 2 24 0 23 0 []) .csc := by
  refine ⟨by unfold zeroDimension; decide, by unfold oddDimension; decide,
    by unfold dimensionMismatch expectedLength; decide, by unfold addrRange; decide, (0, 24), by decide, 23, by decide⟩

/-- Adjacent ranges (E14) and a range that ends at `FMEM_SIZE`. -/
theorem witness_Validation_accepted :
    ¬ zeroDimension (ready 4 2 24 0 24 0 []) ∧ ¬ oddDimension (ready 4 2 24 0 24 0 [])
    ∧ ¬ dimensionMismatch (ready 4 2 24 0 24 0 []) .csc ∧ ¬ addrRange (ready 4 2 24 0 24 0 []) .csc
    ∧ ¬ addrRange (ready 4 2 24 0 40 0 []) .csc ∧ ¬ overlap (ready 4 2 24 0 24 0 []) .csc := by
  refine ⟨by unfold zeroDimension; decide, by unfold oddDimension; decide,
    by unfold dimensionMismatch expectedLength; decide, by unfold addrRange; decide, by unfold addrRange; decide, ?_⟩
  rintro ⟨r, hr, a, h⟩
  have hr : r = (0, 24) := by simpa [sources, expectedLength, frameSize, ready, idle, State.powerUp] using hr
  subst hr
  have hd : destination (ready 4 2 24 0 24 0 []) .csc = (24, 24) := by decide
  rw [hd] at h
  omega

theorem witness_CommandWriteIsDroppedRejectedOrAccepted :
    cscNext.params.legal = true ∧ cscNext.inputs = [.write 0x20#25 .b4 1] ∧ cscNext.lc = none ∧ cscNext.validate 1 = .none
    ∧ (cmdNext none 1).lc = none ∧ (cmdNext none 1).validate 1 ≠ .none
    ∧ (cmdNext (some (latched .csc 2 2 12 0 0 16)) 1).lc ≠ none := by decide

theorem witness_RegisterReadsReturnTheirFields :
    laterDelta.params.legal = true
    ∧ laterDelta.deltaCount = 0xFFFFFFFF#32
    ∧ State.inputs { laterDelta with inputs := [.read 0x3C#25 .b4] } = [.read 0x3C#25 .b4] := by decide

theorem witness_RegisterWritesStoreTheWritableFields :
    (idle []).params.legal = true
    ∧ State.inputs { idle [] with inputs := [.write 0x2C#25 .b4 0xFFFFFFFF] } = [.write 0x2C#25 .b4 0xFFFFFFFF] := by decide

/-- Every way an access can miss, at the boundary of its range. -/
theorem witness_OtherAccessesAreIgnored :
    (idle []).params.legal = true ∧ ignored (idle []) 0x3C 2 ∧ ignored (idle []) 0x3E 4 ∧ ignored (idle []) 0x40 4
    ∧ ignored (idle []) 0xFC 4 ∧ ignored (idle []) 0x100 4 ∧ ignored (idle []) 0xFFFFFF 1 ∧ ignored (idle []) 0x01000001 2
    ∧ ignored (idle []) 0x0100003E 4 ∧ ignored (idle []) 0x01000040 1 := by
  refine ⟨?_, ?_, ?_, ?_, ?_, ?_, ?_, ?_, ?_, ?_⟩ <;> first | decide | (unfold ignored; decide)

/-- Acknowledged by the host, and cleared by reset. -/
theorem witness_PendingBitsStayUntilAcknowledged :
    (∃ t, step { idle [] with irqStatus := 4, inputs := [wr32 .irqStatus 4] } = .next t ∧ t.irqStatus.getLsbD 2 = false)
    ∧ ∃ t, step { idle [] with irqStatus := 4, inputs := [.reset] } = .next t ∧ t.irqStatus.getLsbD 2 = false :=
  ⟨⟨_, rfl, by decide⟩, ⟨_, rfl, by decide⟩⟩

/-- One witness per pending bit. -/
theorem witness_PendingBitsAreSetByTheirEvents :
    after (step firstDelta) (fun t => t.irqStatus.getLsbD 0) = some true
    ∧ after (step (cmdNext none 7)) (fun t => t.irqStatus.getLsbD 1) = some true
    ∧ after (step (cmdNext (some (latched .nop 0 0 0 0 0 0)) 0)) (fun t => t.irqStatus.getLsbD 2) = some true
    ∧ firstDelta.irqStatus = 0 ∧ (cmdNext none 7).irqStatus = 0
    ∧ (cmdNext (some (latched .nop 0 0 0 0 0 0)) 0).irqStatus = 0 := by decide

/-- While a `CSC` runs from `[0, 12)` to `[16, 28)`: the word just past its destination, which ends at FMEM address 63 or below. -/
def busyCsc (next : Input) : State := { inFlight (latched .csc 2 2 12 0 0 16) [1, 2, 3] with inputs := [next] }

theorem witness_HostWriteStoresLittleEndianBytes :
    let s := busyCsc (.write 0x0100001C#25 .b4 0x11223344)
    s.params.legal = true ∧ s.mem.wf = true ∧ (0x0100001C#25).toNat = 0x01000000 + 28 ∧ 28 % AccessSize.b4.bytes = 0
      ∧ 28 + AccessSize.b4.bytes ≤ s.params.fmemSize ∧ ∀ i < AccessSize.b4.bytes, s.inFlightBytes (28 + i) = false := by
  decide

theorem witness_HostReadReturnsTheLittleEndianValue :
    let s := busyCsc (.read 0x01000000#25 .b4)
    s.params.legal = true ∧ (0x01000000#25).toNat = 0x01000000 + 0 ∧ 0 % AccessSize.b4.bytes = 0
      ∧ 0 + AccessSize.b4.bytes ≤ s.params.fmemSize ∧ ∀ i < AccessSize.b4.bytes, s.inFlightDst (0 + i) = false := by decide

theorem witness_BusyDestinationBytesReadAsFreeValues :
    let s := busyCsc (.read 0x0100001B#25 .b1)
    s.params.legal = true ∧ (0x0100001B#25).toNat = 0x01000000 + 27 ∧ 27 % AccessSize.b1.bytes = 0
      ∧ 27 + AccessSize.b1.bytes ≤ s.params.fmemSize ∧ s.inFlightDst (27 + 0) = true := by decide

/-- The last source byte and the last destination byte. -/
theorem witness_HostWriteUnderACommandFaults :
    let s := busyCsc (.write 0x0100000B#25 .b1 0)
    let c := latched .csc 2 2 12 0 0 16
    s.params.legal = true ∧ s.lc = some c ∧ (⟨0, 12⟩ : Span) ∈ s.srcRanges c ++ c.dstRange.toList
      ∧ (⟨16, 12⟩ : Span) ∈ s.srcRanges c ++ c.dstRange.toList ∧ (0x0100000B#25).toNat = 0x01000000 + 11
      ∧ 11 + AccessSize.b1.bytes ≤ s.params.fmemSize ∧ (0x0100001B#25).toNat = 0x01000000 + 27 := by decide

theorem witness_ResetInputRestoresTheRegisters :
    let s := busyCsc .reset
    s.params.legal = true ∧ s.inputs = [.reset] ∧ s.inFlightDst 15 = false ∧ s.inFlightDst 28 = false
      ∧ State.lc { idle [] with inputs := [.reset] } = none := by decide

theorem witness_ResetLeavesFreeDestinationBytes :
    let s := busyCsc .reset
    let c := latched .csc 2 2 12 0 0 16
    s.params.legal = true ∧ s.mem.wf = true ∧ s.inputs = [.reset] ∧ s.lc = some c ∧ c.dstRange = some ⟨16, 12⟩ := by decide

theorem witness_PowerUpMeetsTheStateInvariant :
    smallParams.legal = true ∧ Memory.wf [(63, 1)] = true ∧ Memory.within [(63, 1)] smallParams.fmemSize = true := by decide

/-- The invariant holds of a state with a command in flight and a delta sequence running. -/
theorem laterDelta_inv : laterDelta.Inv where
  params_legal := by decide
  mem_wf := by decide
  mem_within := by decide
  seq_clear := by decide
  prev_fits := by decide
  latched_valid := by
    intro c hc
    cases hc
    decide

theorem witness_EveryStepKeepsTheStateInvariant : laterDelta.Inv ∧ ∃ t, step laterDelta = .next t :=
  ⟨laterDelta_inv, _, rfl⟩

theorem witness_AcceptedCommandCannotFail :
    laterDelta.Inv ∧ laterDelta.lc = some (latched .delta 2 2 6 6 0 16) := ⟨laterDelta_inv, by decide⟩

/-- The same state, with a host write to its last destination byte next: the one stop. -/
def laterDeltaWritten : State := { laterDelta with inputs := [.write 0x01000015#25 .b1 0] }

theorem witness_OnlyAWriteUnderACommandStops :
    laterDeltaWritten.Inv ∧ step laterDeltaWritten = .fault .hostWriteUnderCommand :=
  ⟨⟨by decide, by decide, by decide, by decide, by decide, fun c hc => by cases hc; decide⟩, rfl⟩

/-- A queue that keeps the host's discipline: a poll, a write just past the destination, the engine's turn. -/
def laterDeltaPolled : State :=
  { laterDelta with inputs := [.read 0x24#25 .b4, .write 0x01000016#25 .b2 5, .engine] }

theorem witness_CommandInFlightCompletes :
    laterDeltaPolled.Inv ∧ laterDeltaPolled.lc = some (latched .delta 2 2 6 6 0 16)
    ∧ ∀ i ∈ laterDeltaPolled.inputs, i ≠ .reset ∧ laterDeltaPolled.respects i = true :=
  ⟨⟨by decide, by decide, by decide, by decide, by decide, fun c hc => by cases hc; decide⟩, by decide, by decide⟩

theorem witness_NoStepChangesTheParameters : ∃ t, step firstDelta = .next t := ⟨_, rfl⟩

theorem witness_NoCommandWritesTheOperandRegisters : ∃ t, exec .delta firstDelta = .next t := ⟨_, rfl⟩

theorem witness_CommandUsesOnlyLatchedOperands : ∃ t, exec .delta laterDelta = .next t := ⟨_, rfl⟩

/-- A completing `DELTA`, and a reset, each of which changes the sequence state. -/
theorem witness_SequenceStateChangesOnlyByItsCommands :
    after (step firstDelta) (fun t => t.seqValid) = some true ∧ firstDelta.seqValid = false
    ∧ after (step { laterDelta with inputs := [.reset] }) (fun t => t.seqValid) = some false ∧ laterDelta.seqValid = true := by
  decide

/-- A byte changed by a completion, and one changed by a host write. -/
theorem witness_FmemChangesOnlyWhereWritten :
    laterDelta.Inv ∧ (∃ t, step laterDelta = .next t ∧ t.mem.read 16 ≠ laterDelta.mem.read 16)
    ∧ ∃ t, step { idle [] with inputs := [.write 0x01000007#25 .b1 5] } = .next t ∧ t.mem.read 7 ≠ (idle []).mem.read 7 :=
  ⟨laterDelta_inv, ⟨_, rfl, by decide⟩, ⟨_, rfl, by decide⟩⟩

end Sys2Proof.Tests
end

section
/-! The scope of the model (00_scope.md R6): the parameters are fixed, and only legal ones are run. -/

namespace Sys2Proof.Machine

/-- A refused choice of `FMEM_SIZE` is exactly one outside 1 to 2^24 (00_scope.md R6). -/
theorem Params.legal_eq_false {p : Params} : p.legal = false ↔ p.fmemSize = 0 ∨ 2 ^ 24 < p.fmemSize := by
  simp only [Params.legal, Bool.and_eq_false_iff, decide_eq_false_iff_not]
  omega

theorem step_illegal {s : State} (h : s.params.legal = false) : step s = .refused .illegalParameters := by
  simp [step, h]

theorem engineTurn_params {s t : State} (h : s.engineTurn = .next t) : t.params = s.params := by
  rcases engineTurn_next h with ⟨-, rfl⟩ | ⟨c, -, hexec⟩
  · rfl
  · exact exec_params hexec

@[simp] theorem State.hostRead_params (s : State) (o : BitVec 25) (size : AccessSize) :
    (s.hostRead o size).params = s.params := by
  obtain ⟨value, drawn, hread⟩ := s.hostRead_frame o size
  rw [hread]

theorem State.hostWrite_params {s t : State} {o : BitVec 25} {size : AccessSize} {v : Word}
    (h : s.hostWrite o size v = .next t) : t.params = s.params := by
  rcases State.hostWrite_next h with ⟨r, -, -, rfl⟩ | ⟨-, -, -, rfl⟩ | rfl
  · exact (s.writeReg_frame r v).1
  · exact s.storeBytes_params _ _
  · rfl

@[simp] theorem State.withInputs_params (s : State) (rest : List Input) : (s.withInputs rest).params = s.params := rfl

/-- Settles O42: each of the four things a step can be keeps the parameters, and taking the input off the queue does too. -/
theorem noStepChangesTheParameters : Obligations.NoStepChangesTheParameters := by
  intro s t h
  obtain ⟨-, ⟨rest, -, hengine⟩ | ⟨o, size, rest, -, rfl⟩ | ⟨o, size, v, rest, -, hwrite⟩ | ⟨rest, -, rfl⟩⟩ := step_next h
  · rw [engineTurn_params hengine, State.withInputs_params]
  · rw [State.hostRead_params, State.withInputs_params]
  · rw [State.hostWrite_params hwrite, State.withInputs_params]
  · rw [State.resetInput_params, State.withInputs_params]

/-- Settles O9: an `FMEM_SIZE` outside 1 to 2^24 is not legal, and `step` refuses what is not legal. -/
theorem illegalFmemSizeIsRefused : Obligations.IllegalFmemSizeIsRefused :=
  fun _ h => step_illegal (Params.legal_eq_false.mpr h)

end Sys2Proof.Machine
end

section
/-! Registers and the interrupt output (10_state.md): what a host access to the register space does, what the commands leave
unchanged, and the reset values. -/

namespace Sys2Proof.Machine

open Sys2Proof.Claims

/-! ### Register reads -/

/-- The `STATUS` word as the sum of its three fields (10_state.md R30). -/
theorem State.statusWord_eq (s : State) :
    s.statusWord = BitVec.ofNat 32 ((if s.lc.isSome then 1 else 0) + (if s.errCause ≠ .none then 2 else 0)
      + (if s.seqValid then 4 else 0)) := by
  have herr : s.err = decide (s.errCause ≠ .none) := by
    rw [State.err]
    cases s.errCause <;> rfl
  rw [State.statusWord, herr, State.busy_eq]
  by_cases hcause : s.errCause = .none
  · cases s.lc.isSome <;> cases s.seqValid <;> simp [hcause]
  · cases s.lc.isSome <;> cases s.seqValid <;> simp [hcause]

/-- Settles O24: each offset of the table is that of a register whose read value is the one beside it. -/
theorem registerReadsReturnTheirFields : Obligations.RegisterReadsReturnTheirFields := by
  intro s offset value rest hp hmem hi
  have hreg : ∃ r : Reg, offset = r.offset ∧ s.readReg r = value := by
    simp only [List.mem_cons, Prod.mk.injEq, List.not_mem_nil, or_false] at hmem
    obtain ⟨rfl, rfl⟩ | ⟨rfl, rfl⟩ | ⟨rfl, rfl⟩ | ⟨rfl, rfl⟩ | ⟨rfl, rfl⟩ | ⟨rfl, rfl⟩ | ⟨rfl, rfl⟩ | ⟨rfl, rfl⟩
      | ⟨rfl, rfl⟩ | ⟨rfl, rfl⟩ | ⟨rfl, rfl⟩ | ⟨rfl, rfl⟩ | ⟨rfl, rfl⟩ | ⟨rfl, rfl⟩ | ⟨rfl, rfl⟩ | ⟨rfl, rfl⟩ := hmem
    · exact ⟨.id, rfl, rfl⟩
    · exact ⟨.fmemSize, rfl, rfl⟩
    · exact ⟨.width, rfl, (BitVec.ofNat_toNat 32 s.width).symm⟩
    · exact ⟨.height, rfl, (BitVec.ofNat_toNat 32 s.height).symm⟩
    · exact ⟨.srcAddr, rfl, rfl⟩
    · exact ⟨.srcLen, rfl, rfl⟩
    · exact ⟨.auxAddr, rfl, rfl⟩
    · exact ⟨.dstAddr, rfl, rfl⟩
    · exact ⟨.cmd, rfl, rfl⟩
    · exact ⟨.status, rfl, s.statusWord_eq⟩
    · exact ⟨.errCause, rfl, by rw [State.readReg]; cases s.errCause <;> rfl⟩
    · exact ⟨.irqEn, rfl, (BitVec.ofNat_toNat 32 s.irqEn).symm⟩
    · exact ⟨.irqStatus, rfl, (BitVec.ofNat_toNat 32 s.irqStatus).symm⟩
    · exact ⟨.prevAddr, rfl, rfl⟩
    · exact ⟨.prevLen, rfl, rfl⟩
    · exact ⟨.deltaCount, rfl, rfl⟩
  obtain ⟨r, rfl, rfl⟩ := hreg
  exact step_readReg r hp hi

/-! ### Register writes -/

/-- The low bits of a word, as the model takes them and as a number cut to their width. -/
theorem extractLsb'_zero_eq_ofNat {n : Nat} (v : Word) (h : n ≤ 32) : v.extractLsb' 0 n = BitVec.ofNat n v.toNat := by
  rw [BitVec.ofNat_toNat, BitVec.setWidth_eq_extractLsb' h]

/-- Settles O25: each offset of the table is that of a register whose write gives the state beside it, whatever
stands in the queue. -/
theorem registerWritesStoreTheWritableFields : Obligations.RegisterWritesStoreTheWritableFields := by
  intro s t offset v rest hp hmem hi
  have hlow16 := extractLsb'_zero_eq_ofNat (n := 16) v (by decide)
  have hlow3 := extractLsb'_zero_eq_ofNat (n := 3) v (by decide)
  have hreg : ∃ r : Reg, offset = r.offset ∧ (s.withInputs rest).writeReg r v = t.withInputs rest := by
    simp only [List.mem_cons, Prod.mk.injEq, List.not_mem_nil, or_false, ← hlow16, ← hlow3] at hmem
    obtain ⟨rfl, rfl⟩ | ⟨rfl, rfl⟩ | ⟨rfl, rfl⟩ | ⟨rfl, rfl⟩ | ⟨rfl, rfl⟩ | ⟨rfl, rfl⟩ | ⟨rfl, rfl⟩ | ⟨rfl, rfl⟩
      | ⟨rfl, rfl⟩ | ⟨rfl, rfl⟩ | ⟨rfl, rfl⟩ | ⟨rfl, rfl⟩ | ⟨rfl, rfl⟩ | ⟨rfl, rfl⟩ | ⟨rfl, rfl⟩ := hmem
    · exact ⟨.id, rfl, rfl⟩
    · exact ⟨.fmemSize, rfl, rfl⟩
    · exact ⟨.status, rfl, rfl⟩
    · exact ⟨.errCause, rfl, rfl⟩
    · exact ⟨.prevAddr, rfl, rfl⟩
    · exact ⟨.prevLen, rfl, rfl⟩
    · exact ⟨.deltaCount, rfl, rfl⟩
    · exact ⟨.width, rfl, rfl⟩
    · exact ⟨.height, rfl, rfl⟩
    · exact ⟨.srcAddr, rfl, rfl⟩
    · exact ⟨.srcLen, rfl, rfl⟩
    · exact ⟨.auxAddr, rfl, rfl⟩
    · exact ⟨.dstAddr, rfl, rfl⟩
    · exact ⟨.irqEn, rfl, rfl⟩
    · exact ⟨.irqStatus, rfl, rfl⟩
  obtain ⟨r, rfl, hwrite⟩ := hreg
  rw [step_writeReg r hp hi, hwrite, State.withInputs]

/-! ### Ignored accesses -/

/-- The defined registers are the words below offset 0x40 (10_state.md R20). -/
theorem Reg.offset_aligned_and_below (r : Reg) : r.offset.toNat % 4 = 0 ∧ r.offset.toNat < 0x40 := by
  cases r <;> decide

/-- An access of 10_state.md R37 and 20_memory.md R62, R63 reaches nothing. -/
theorem State.target_of_ignored {s : State} {o : BitVec 25} {size : AccessSize} (h : ignored s o.toNat size.bytes) :
    s.target o size = .nothing := by
  unfold ignored at h
  obtain ⟨r, rfl, ho, -⟩ | ⟨hwindow, haligned, hfits, -⟩ | hnothing := s.target_cases o size
  · have hr := r.offset_aligned_and_below
    rw [Reg.offset_of_atOffset ho, AccessSize.bytes] at h
    omega
  · omega
  · exact hnothing

/-- Settles O26: an ignored access reaches nothing, and what reaches nothing reads 0 and writes nothing. -/
theorem otherAccessesAreIgnored : Obligations.OtherAccessesAreIgnored := by
  intro s offset size v rest hp hign
  have ht : (s.withInputs rest).target offset size = .nothing := State.target_of_ignored hign
  constructor
  · intro hi
    rw [step_input hp hi, State.runInput, State.hostRead, ht]
    rfl
  · intro hi
    rw [step_input hp hi, State.runInput, State.hostWrite, ht]
    rfl

/-! ### What the commands leave unchanged -/

/-- A command's effect on the delta sequence changes the four sequence fields at most. -/
theorem sequenceEffect_frame (c : Latched) (s : State) (i : Instr) :
    ∃ valid addr len count,
      sequenceEffect c s i = { s with seqValid := valid, prevAddr := addr, prevLen := len, deltaCount := count } := by
  cases i <;> exact ⟨_, _, _, _, rfl⟩

/-- Settles O43: a completion stores bytes, moves the delta sequence and ends the command; none of the three touches an
operand register, an enable bit or the cause. -/
theorem noCommandWritesTheOperandRegisters : Obligations.NoCommandWritesTheOperandRegisters := by
  intro i s t h
  obtain ⟨c, out, -, -, -, rfl⟩ := exec_next h
  obtain ⟨valid, addr, len, count, heffect⟩ := sequenceEffect_frame c (s.storeBytes c.dst.toNat out) i
  rw [heffect]
  exact ⟨rfl, rfl, rfl, rfl, rfl, rfl, rfl, rfl⟩

/-! ### The delta sequence state -/

/-- The four fields of the delta sequence state are the same in `t` as in `s` (10_state.md R43). -/
def State.SameSequence (s t : State) : Prop :=
  t.seqValid = s.seqValid ∧ t.prevAddr = s.prevAddr ∧ t.prevLen = s.prevLen ∧ t.deltaCount = s.deltaCount

theorem State.hostRead_sameSequence (s : State) (o : BitVec 25) (size : AccessSize) :
    s.SameSequence (s.hostRead o size) := by
  obtain ⟨value, drawn, hread⟩ := s.hostRead_frame o size
  rw [hread]
  exact ⟨rfl, rfl, rfl, rfl⟩

theorem State.hostWrite_sameSequence {s t : State} {o : BitVec 25} {size : AccessSize} {v : Word}
    (h : s.hostWrite o size v = .next t) : s.SameSequence t := by
  obtain ⟨r, -, -, rfl⟩ | ⟨-, -, -, rfl⟩ | rfl := State.hostWrite_next h
  · obtain ⟨-, -, hvalid, haddr, hlen, hcount, -⟩ := s.writeReg_frame r v
    exact ⟨hvalid, haddr, hlen, hcount⟩
  · exact ⟨rfl, rfl, rfl, rfl⟩
  · exact ⟨rfl, rfl, rfl, rfl⟩

theorem sequenceEffect_of_ne (c : Latched) (s : State) {i : Instr} (hdelta : i ≠ .delta) (hdseq : i ≠ .dseq) :
    sequenceEffect c s i = s := by
  cases i
  case delta => exact absurd rfl hdelta
  case dseq => exact absurd rfl hdseq
  all_goals rfl

theorem exec_sameSequence {i : Instr} {s t : State} (h : exec i s = .next t) (hdelta : i ≠ .delta) (hdseq : i ≠ .dseq) :
    s.SameSequence t := by
  obtain ⟨c, out, -, -, -, rfl⟩ := exec_next h
  rw [sequenceEffect_of_ne c _ hdelta hdseq]
  exact ⟨rfl, rfl, rfl, rfl⟩

/-- An engine's turn that moves the delta sequence completes a `DELTA` or a `DSEQ`. -/
theorem engineTurn_changes_sequence {s t : State} (h : s.engineTurn = .next t) (hchanged : ¬ s.SameSequence t) :
    ∃ c, s.lc = some c ∧ (c.op = .delta ∨ c.op = .dseq) := by
  obtain ⟨-, rfl⟩ | ⟨c, hc, hexec⟩ := engineTurn_next h
  · exact absurd ⟨rfl, rfl, rfl, rfl⟩ hchanged
  · refine ⟨c, hc, ?_⟩
    by_contra hop
    obtain ⟨hdelta, hdseq⟩ := not_or.mp hop
    exact hchanged (exec_sameSequence hexec hdelta hdseq)

/-- Settles O45: of the four things a step can be, host accesses keep the sequence state, so a step that changes it is a reset
or the engine's turn. -/
theorem sequenceStateChangesOnlyByItsCommands : Obligations.SequenceStateChangesOnlyByItsCommands := by
  intro s t h hchanged
  obtain ⟨-, ⟨rest, hturn, hengine⟩ | ⟨o, size, rest, -, rfl⟩ | ⟨o, size, v, rest, -, hwrite⟩ | ⟨rest, hreset, -⟩⟩ :=
    step_next h
  · have hnext : engineNext s := hturn.imp And.left fun hi => ⟨rest, hi⟩
    exact .inr ⟨hnext, engineTurn_changes_sequence (s := s.withInputs rest) hengine hchanged⟩
  · exact absurd ((s.withInputs rest).hostRead_sameSequence o size) hchanged
  · exact absurd (State.hostWrite_sameSequence hwrite) hchanged
  · exact .inl ⟨rest, hreset⟩

/-! ### The interrupt output and the reset values -/

/-- Settles O27: the pending and enabled sources are 0 exactly when no bit of them is 1. -/
theorem irqIsPendingAndEnabled : Obligations.IrqIsPendingAndEnabled := by
  intro s
  rw [State.irq, bne_iff_ne, ne_eq, BitVec.eq_of_getLsbD_eq_iff]
  simp

/-- Settles O34: power-up writes the reset values down field by field, and the computed bits follow from them. -/
theorem powerUpLeavesTheResetValues : Obligations.PowerUpLeavesTheResetValues := by
  intro p m
  have hstatus : (State.powerUp p m).statusWord = 0 := State.statusWord_eq _
  have hirq : (State.powerUp p m).irq = false := bne_eq_false_iff_eq.mpr BitVec.zero_and
  exact ⟨rfl, rfl, rfl, rfl, rfl, rfl, rfl, rfl, rfl, rfl, rfl, rfl, hirq, rfl, rfl, rfl, rfl, rfl, rfl, rfl, hstatus, rfl⟩

/-- At power-up there is no delta sequence and no command is in flight, so only the parameters and FMEM are left to ask about. -/
theorem State.powerUp_inv {p : Params} {m : Memory} (hp : p.legal = true) (hw : m.wf = true)
    (hm : m.within p.fmemSize = true) : (State.powerUp p m).Inv where
  params_legal := hp
  mem_wf := hw
  mem_within := hm
  seq_clear := fun _ => ⟨rfl, rfl, rfl⟩
  prev_fits := fun h => by cases h
  latched_valid := fun c h => by cases h

/-- Settles O37: the reset state is the power-up state of the default parameters, which are legal, and of the empty FMEM. -/
theorem powerUpMeetsTheStateInvariant : Obligations.PowerUpMeetsTheStateInvariant :=
  ⟨fun _ _ => State.powerUp_inv, State.powerUp_inv (by decide) rfl rfl⟩

end Sys2Proof.Machine
end

section
/-! FMEM and its accesses (20_memory.md): what a host access to the window does, which steps change a byte, and where the
aperture lies. -/

namespace Sys2Proof.Machine

open Sys2Proof.Claims

/-! ### Little-endian bytes -/

/-- Byte `i` of a word is its digit `i` to the base 256 (20_memory.md R64). -/
theorem toNat_extractLsb'_byte (v : Word) (i : Nat) : (v.extractLsb' (8 * i) 8).toNat = v.toNat / 256 ^ i % 256 := by
  rw [BitVec.extractLsb'_toNat, Nat.shiftRight_eq_div_pow, pow_mul]
  rfl

/-- The little-endian value of `n` bytes as the sum of its digits (20_memory.md R64). -/
theorem leValue_map_range (f : Nat → Byte) (n : Nat) :
    leValue ((List.range n).map f) = ((List.range n).map fun i => (f i).toNat * 256 ^ i).sum := by
  induction n generalizing f with
  | zero => rfl
  | succ n ih =>
    calc leValue ((List.range (n + 1)).map f)
        = (f 0).toNat + 256 * leValue ((List.range n).map fun i => f (i + 1)) := by
          rw [List.range_succ_eq_map, List.map_cons, List.map_map, leValue]
          rfl
      _ = (f 0).toNat + ((List.range n).map fun i => (f (i + 1)).toNat * 256 ^ (i + 1)).sum := by
          rw [ih, ← List.sum_map_mul_left]
          simp only [pow_succ', mul_left_comm]
      _ = ((List.range (n + 1)).map fun i => (f i).toNat * 256 ^ i).sum := by
          rw [List.range_succ_eq_map, List.map_cons, List.map_map, List.sum_cons, pow_zero, mul_one]
          rfl

/-! ### A host access to the window -/

@[simp] theorem State.withInputs_mem (s : State) (rest : List Input) : (s.withInputs rest).mem = s.mem := rfl

section WindowAccess

variable {s : State} {o : BitVec 25} {size : AccessSize} {a : Nat} {rest : List Input}

/-- A step whose input is an aligned host read inside FMEM. -/
theorem step_readFmem (hp : s.params.legal = true) (ho : o.toNat = 0x01000000 + a) (ha : a % size.bytes = 0)
    (hf : a + size.bytes ≤ s.params.fmemSize) (hi : s.inputs = .read o size :: rest) :
    step s = .next { s with
      inputs := rest
      lastRead := some (BitVec.ofNat 32 (leValue (s.hostBytes a size.bytes)))
      draws := s.draws + s.drawsFor a size.bytes } := by
  have ht : (s.withInputs rest).target o size = .fmem a size.bytes := State.target_fmem ho ha hf
  rw [step_input hp hi, State.runInput, State.hostRead, ht]
  rfl

/-- A step whose input is an aligned host write inside FMEM: the fault, or the store. -/
theorem step_writeFmem {v : Word} (hp : s.params.legal = true) (ho : o.toNat = 0x01000000 + a) (ha : a % size.bytes = 0)
    (hf : a + size.bytes ≤ s.params.fmemSize) (hi : s.inputs = .write o size v :: rest) :
    step s = if s.underCommand a size.bytes then .fault .hostWriteUnderCommand
      else .next ((s.withInputs rest).storeBytes a (leBytes v size.bytes)) := by
  have ht : (s.withInputs rest).target o size = .fmem a size.bytes := State.target_fmem ho ha hf
  rw [step_input hp hi, State.runInput, State.hostWrite, ht]
  rfl

end WindowAccess

/-- Settles O30: outside the ranges of the command in flight the write is the store of its little-endian bytes. -/
theorem hostWriteStoresLittleEndianBytes : Obligations.HostWriteStoresLittleEndianBytes := by
  intro s offset size v a rest hp hw ho ha hf hfree hi
  have hstep := step_writeFmem hp ho ha hf hi
  rw [State.underCommand_eq_false.mpr hfree] at hstep
  refine ⟨_, hstep, rfl, fun i hlt => ?_, fun x hx => ?_⟩
  · rw [State.storeBytes_mem, State.withInputs_mem, Memory.read_writeBytes_inside a _ hw (by simpa using hlt),
      byteAt_leBytes v hlt, toNat_extractLsb'_byte]
  · exact Memory.read_writeBytes_outside _ _ _ (by simpa using hx)

theorem State.drawsFor_eq_zero {s : State} {a n : Nat} (h : ∀ i < n, s.inFlightDst (a + i) = false) :
    s.drawsFor a n = 0 :=
  if_neg (by simpa using h)

theorem State.drawsFor_eq_length {s : State} {a n : Nat} (h : ∃ i < n, s.inFlightDst (a + i) = true) :
    s.drawsFor a n = n :=
  if_pos (by simpa using h)

/-- Outside the destination of the command in flight a host read sees the bytes as they stand (20_memory.md R71). -/
theorem State.hostBytes_eq_readBytes {s : State} {a n : Nat} (h : ∀ i < n, s.inFlightDst (a + i) = false) :
    s.hostBytes a n = s.mem.readBytes a n :=
  List.map_congr_left fun i hi => if_neg (by simp [h i (List.mem_range.mp hi)])

/-- Settles O31: outside the destination no free value is drawn, and the value is the sum of the digits of the bytes read. -/
theorem hostReadReturnsTheLittleEndianValue : Obligations.HostReadReturnsTheLittleEndianValue := by
  intro s offset size a rest hp ho ha hf hfree hi
  refine ⟨BitVec.ofNat 32 (leValue (s.hostBytes a size.bytes)), ?_, ?_⟩
  · rw [step_readFmem hp ho ha hf hi, State.drawsFor_eq_zero hfree, Nat.add_zero]
  · rw [State.hostValue_toNat, State.hostBytes_eq_readBytes hfree, Memory.readBytes, leValue_map_range]

/-- Settles O32: digit `i` of the value is byte `i` of the read, and a read that meets a destination byte moves the counter by
its whole length. -/
theorem busyDestinationBytesReadAsFreeValues : Obligations.BusyDestinationBytesReadAsFreeValues := by
  intro s offset size a rest hp ho ha hf hi
  refine ⟨_, _, step_readFmem hp ho ha hf hi, rfl, fun i hlt => ?_, fun hbusy => ?_⟩
  · rw [State.hostValue_toNat, leValue_digit _ (by simpa using hlt), State.hostBytes, byteAt_map_range _ hlt,
      State.hostByte]
  · rw [State.drawsFor_eq_length hbusy]

theorem Span.covers_iff {r : Span} {x : Nat} : r.covers x = true ↔ r.base ≤ x ∧ x < r.base + r.len := by
  simp [Span.covers]

/-- A byte of a declared range of the command in flight is one a host write must keep off (20_memory.md R72). -/
theorem State.inFlightBytes_of_range {s : State} {c : Latched} {r : Span} {x : Nat} (hc : s.lc = some c)
    (hr : r ∈ s.srcRanges c ++ c.dstRange.toList) (hx : r.covers x = true) : s.inFlightBytes x = true := by
  rw [State.inFlightBytes, hc]
  exact List.any_eq_true.mpr ⟨r, hr, hx⟩

/-- Settles O33: the byte of the range puts the whole access under the command. -/
theorem hostWriteUnderACommandFaults : Obligations.HostWriteUnderACommandFaults := by
  intro s offset size v a i c r rest hp ho ha hf hc hr hlt hlo hhi hi
  have hbyte : s.inFlightBytes (a + i) = true := State.inFlightBytes_of_range hc hr (Span.covers_iff.mpr ⟨hlo, hhi⟩)
  have hunder : s.underCommand a size.bytes = true :=
    List.any_eq_true.mpr ⟨i, List.mem_range.mpr hlt, hbyte⟩
  rw [step_writeFmem hp ho ha hf hi, if_pos hunder]

/-! ### Which steps change FMEM -/

/-- A byte that a store changes lies in the stored range. -/
theorem Memory.range_of_read_writeBytes_ne {m : Memory} {a x : Nat} {bs : List Byte}
    (h : (m.writeBytes a bs).read x ≠ m.read x) : a ≤ x ∧ x < a + bs.length := by
  by_contra hout
  exact h (Memory.read_writeBytes_outside m a bs (by omega))

theorem sequenceEffect_mem (c : Latched) (s : State) (i : Instr) : (sequenceEffect c s i).mem = s.mem := by
  obtain ⟨valid, addr, len, count, heffect⟩ := sequenceEffect_frame c s i
  rw [heffect]

/-- The bytes a valid command writes are its destination range (40_command_execution.md R113); a command that
declares none writes none. -/
theorem State.Inv.inFlightDst_of_output {s : State} {c : Latched} {x : Nat} (h : s.Inv) (hc : s.lc = some c)
    (hlo : c.dst.toNat ≤ x) (hhi : x < c.dst.toNat + outLength c c.op) : s.inFlightDst x = true := by
  have hwrites : isFrameCommand c.op = true := by
    cases hop : c.op
    case nop | dseq => rw [hop, outLength] at hhi; omega
    all_goals rfl
  obtain ⟨d, hd⟩ : ∃ d, d ∈ c.dstRange.toList := by
    cases hop : c.op
    case nop | dseq => rw [hop] at hwrites; cases hwrites
    all_goals exact ⟨_, by rw [Latched.dstRange, hop]; exact List.mem_singleton_self _⟩
  have hcovers : d.covers x = true := by
    rw [outLength_valid (h.valid hc hwrites) d hd]
    exact Span.covers_iff.mpr ⟨hlo, hhi⟩
  rw [State.inFlightDst, hc]
  exact List.any_eq_true.mpr ⟨d, hd, hcovers⟩

/-- A byte that an engine's turn changes lies in the destination of the command in flight (20_memory.md R66). -/
theorem engineTurn_changes_mem {s t : State} {x : Nat} (hinv : s.Inv) (h : s.engineTurn = .next t)
    (hchanged : t.mem.read x ≠ s.mem.read x) : s.inFlightDst x = true := by
  obtain ⟨-, rfl⟩ | ⟨c, hc, hexec⟩ := engineTurn_next h
  · exact absurd rfl hchanged
  · obtain ⟨c', out, hc', hlen, -, rfl⟩ := exec_next hexec
    obtain rfl : c = c' := Option.some.inj (hc.symm.trans hc')
    rw [State.complete_mem, sequenceEffect_mem, State.storeBytes_mem] at hchanged
    obtain ⟨hlo, hhi⟩ := Memory.range_of_read_writeBytes_ne hchanged
    exact hinv.inFlightDst_of_output hc hlo (hlen ▸ hhi)

/-- A byte that a reset changes lies in the destination of the command it discards (70_reset_and_hazards.md R271). -/
theorem State.resetInput_changes_mem {s : State} {x : Nat} (hchanged : s.resetInput.mem.read x ≠ s.mem.read x) :
    s.inFlightDst x = true := by
  rw [State.resetInput_mem] at hchanged
  obtain ⟨hsame, -⟩ | ⟨c, r, -, -, hdst, hscramble⟩ := s.scrambleDst_cases
  · rw [hsame] at hchanged
    exact absurd rfl hchanged
  · rw [hscramble] at hchanged
    obtain ⟨hlo, hhi⟩ := Memory.range_of_read_writeBytes_ne hchanged
    rw [length_freeBytes] at hhi
    rw [hdst]
    exact Span.covers_iff.mpr ⟨hlo, hhi⟩

/-- A byte that a host write changes is one the access to the window covers (20_memory.md R64). -/
theorem State.hostWrite_changes_mem {s t : State} {o : BitVec 25} {size : AccessSize} {v : Word} {x : Nat}
    (h : s.hostWrite o size v = .next t) (hchanged : t.mem.read x ≠ s.mem.read x) :
    0x01000000 ≤ o.toNat ∧ o.toNat - 0x01000000 ≤ x ∧ x < o.toNat - 0x01000000 + size.bytes := by
  obtain ⟨r, -, -, rfl⟩ | ⟨hwindow, -, -, rfl⟩ | rfl := State.hostWrite_next h
  · obtain ⟨-, hmem, -⟩ := s.writeReg_frame r v
    rw [hmem] at hchanged
    exact absurd rfl hchanged
  · obtain ⟨hlo, hhi⟩ := Memory.range_of_read_writeBytes_ne hchanged
    rw [length_leBytes] at hhi
    exact ⟨hwindow, hlo, hhi⟩
  · exact absurd rfl hchanged

@[simp] theorem State.hostRead_mem (s : State) (o : BitVec 25) (size : AccessSize) : (s.hostRead o size).mem = s.mem := by
  obtain ⟨value, drawn, hread⟩ := s.hostRead_frame o size
  rw [hread]

/-- Settles O46: of the four things a step can be, a host read changes no byte, and each of the others only where it
writes. -/
theorem fmemChangesOnlyWhereWritten : Obligations.FmemChangesOnlyWhereWritten := by
  intro s t a hinv h hchanged
  obtain ⟨-, ⟨rest, hturn, hengine⟩ | ⟨o, size, rest, -, rfl⟩ | ⟨o, size, v, rest, hi, hwrite⟩ | ⟨rest, hreset, rfl⟩⟩ :=
    step_next h
  · have hnext : engineNext s := hturn.imp And.left fun hi => ⟨rest, hi⟩
    exact .inl ⟨engineTurn_changes_mem (s := s.withInputs rest) (hinv.withInputs rest) hengine hchanged, .inl hnext⟩
  · rw [State.hostRead_mem] at hchanged
    exact absurd rfl hchanged
  · exact .inr ⟨o, size, v, rest, hi, State.hostWrite_changes_mem hwrite hchanged⟩
  · exact .inl ⟨State.resetInput_changes_mem (s := s.withInputs rest) hchanged, .inr ⟨rest, hreset⟩⟩

/-! ### The idle block and the aperture -/

/-- Settles O8: with no command in flight the engine's turn is no change, whether it is queued or the queue is empty. -/
theorem idleBlockNeverActsByItself : Obligations.IdleBlockNeverActsByItself := by
  intro s hp hidle
  refine ⟨fun hi => ?_, fun rest hi => ?_⟩
  · rw [step_empty hp hi, engineTurn_none hidle]
  · rw [step_input hp hi]
    exact engineTurn_none (s := s.withInputs rest) hidle

/-- Settles O47: an offset has 25 bits, so inside the aperture the difference to `HOST_BASE` is the offset, and every
`HOST_BASE + o` lies inside it. -/
theorem apertureStartsAtHostBase : Obligations.ApertureStartsAtHostBase := by
  intro p x o
  have ho : o.toNat < 2 ^ 25 := o.isLt
  rw [apertureOffset]
  by_cases hin : p.hostBase ≤ x ∧ x < p.hostBase + 0x02000000
  · rw [if_pos hin, Option.some.injEq, ← BitVec.toNat_inj, BitVec.toNat_ofNat,
      Nat.mod_eq_of_lt (by omega)]
    omega
  · rw [if_neg hin]
    exact iff_of_false nofun (by omega)

end Sys2Proof.Machine
end

section
/-! Command words (30_encoding.md): the decoder and the encoder are inverse to each other, and what a `CMD` write of an illegal
word does. -/

namespace Sys2Proof.Machine

/-! ### The decoder -/

theorem opcField_toNat (v : Word) : (opcField v).toNat = v.toNat % 256 := by
  rw [opcField, BitVec.extractLsb'_toNat, Nat.shiftRight_zero]

theorem rsvField_toNat (v : Word) : (rsvField v).toNat = v.toNat / 256 := by
  have hv := v.isLt
  rw [rsvField, BitVec.extractLsb'_toNat, Nat.shiftRight_eq_div_pow]
  omega

/-- The opcode map read backwards is the encoder (30_encoding.md R92). -/
theorem decodeOpcode_ok {opc : Nat} {i : Instr} (h : decodeOpcode opc = .ok i) : opc = (encode i).toNat := by
  unfold decodeOpcode at h
  split at h <;> cases h <;> rfl

/-- A word that decodes has `RSV = 0`, so it is its opcode. -/
theorem decode_ok {v : Word} {i : Instr} (h : decode v = .ok i) : v = encode i := by
  unfold decode at h
  split at h
  · cases h
  · next hrsv =>
    have hopc := decodeOpcode_ok h
    have hhigh : (rsvField v).toNat = 0 := BitVec.toNat_eq.mp (not_not.mp hrsv)
    rw [opcField_toNat] at hopc
    rw [rsvField_toNat] at hhigh
    exact BitVec.eq_of_toNat_eq (by omega)

theorem decode_encode (i : Instr) : decode (encode i) = .ok i := by
  cases i <;> rfl

/-- Each mnemonic has exactly one command word (30_encoding.md R94). -/
theorem decode_eq_ok_iff {v : Word} {i : Instr} : decode v = .ok i ↔ v = encode i :=
  ⟨decode_ok, fun h => h ▸ decode_encode i⟩

theorem encode_toNat_lt (i : Instr) : (encode i).toNat < 0x07 := by
  cases i <;> decide

/-- Settles O3: a word decodes to a command exactly if it is its encoding, and the rows of the opcode map are the encodings. -/
theorem eachCommandHasExactlyOneWord : Obligations.EachCommandHasExactlyOneWord := by
  intro v i
  refine ⟨decode_eq_ok_iff.trans ?_, decode_eq_ok_iff⟩
  cases i <;> simp [encode]

/-- Settles O2: decoding inverts encoding, whatever the instruction. -/
theorem encodedCommandDecodesBack : Obligations.EncodedCommandDecodesBack :=
  fun i _ => decode_encode i

/-- Settles O1: the seven words are the encodings of their mnemonics; the three illegal ones are decoded as they stand. -/
theorem specWordsDecodeToTheirCommands : Obligations.SpecWordsDecodeToTheirCommands :=
  ⟨decode_encode .nop, decode_encode .csc, decode_encode .sub, decode_encode .pack, decode_encode .delta,
    decode_encode .ups, decode_encode .dseq, rfl, rfl, rfl⟩

/-! ### Illegal words -/

/-- A word is illegal if `RSV` is not 0 or `OPC` is reserved (30_encoding.md R93). -/
theorem decode_illegal {v : Word} (h : v.toNat / 256 ≠ 0 ∨ 0x07 ≤ v.toNat % 256) : ∃ e, decode v = .error e := by
  cases hd : decode v with
  | error e => exact ⟨e, rfl⟩
  | ok i =>
    have hlt := encode_toNat_lt i
    rw [← decode_ok hd] at hlt
    omega

/-- Settles O4: the step is the `CMD` write, which an idle block rejects because the word decodes to nothing, and a busy one drops
without decoding it. -/
theorem illegalWordIsRejectedOrDropped : Obligations.IllegalWordIsRejectedOrDropped := by
  intro s v rest hp hillegal hi
  have hstep : step s = .next ((s.withInputs rest).presentCommand v) := step_writeReg .cmd hp hi
  refine ⟨fun hidle => ?_, fun hbusy => ?_⟩
  · obtain ⟨e, hd⟩ := decode_illegal hillegal
    rw [hstep, State.presentCommand_illegal (s := s.withInputs rest) hidle hd]
    rfl
  · obtain ⟨c, hc⟩ := Option.ne_none_iff_exists'.mp hbusy
    rw [hstep, State.presentCommand_busy (s := s.withInputs rest) v hc]
    rfl

end Sys2Proof.Machine
end

section
/-! Acceptance and execution of a command (40_command_execution.md): what validation reports and what a `CMD` write does, that
every step keeps the invariant, and that a command in flight completes, on its latched operands. -/

namespace Sys2Proof.Machine

open Sys2Proof.Claims

/-! ### Every step keeps the invariant -/

/-- A `DELTA` that passed validation has its source frame, of the latched length, inside FMEM (40_command_execution.md R112,
R113). -/
theorem State.Valid.delta_src_fits {s : State} {c : Latched} (v : s.Valid c) (hop : c.op = .delta) :
    c.src.toNat + c.len.toNat ≤ s.params.fmemSize := by
  have hlen : c.len.toNat = 3 * c.pixels / 2 := by rw [v.len_eq, hop, expLen]
  rw [hlen]
  exact v.fits ⟨c.src.toNat, 3 * c.pixels / 2⟩ (by simp [State.srcRanges, hop])

/-- The source frame of a completing `DELTA` becomes the previous frame (44_temporal_delta.md R203). -/
theorem State.Inv.sequenceUpdate_complete {s : State} {c : Latched} (h : s.Inv)
    (hsrc : c.src.toNat + c.len.toNat ≤ s.params.fmemSize) : (s.sequenceUpdate c).complete.Inv where
  params_legal := h.params_legal
  mem_wf := h.mem_wf
  mem_within := h.mem_within
  seq_clear := nofun
  prev_fits := fun _ => hsrc
  latched_valid := nofun

theorem State.Inv.sequenceClear_complete {s : State} (h : s.Inv) : s.sequenceClear.complete.Inv where
  params_legal := h.params_legal
  mem_wf := h.mem_wf
  mem_within := h.mem_within
  seq_clear := fun _ => ⟨rfl, rfl, rfl⟩
  prev_fits := nofun
  latched_valid := nofun

theorem State.Inv.sequenceEffect_complete {s : State} {c : Latched} (h : s.Inv) (hc : s.lc = some c) :
    (sequenceEffect c s c.op).complete.Inv := by
  cases hop : c.op
  case delta => exact h.sequenceUpdate_complete ((h.valid hc (by rw [hop]; rfl)).delta_src_fits hop)
  case dseq => exact h.sequenceClear_complete
  all_goals exact h.complete

theorem State.Inv.engineTurn {s t : State} (h : s.Inv) (hturn : s.engineTurn = .next t) : t.Inv := by
  obtain ⟨-, rfl⟩ | ⟨c, hc, hexec⟩ := engineTurn_next hturn
  · exact h
  · obtain ⟨c', out, hc', -, hfits, rfl⟩ := exec_next hexec
    obtain rfl : c = c' := Option.some.inj (hc.symm.trans hc')
    have hstored : (s.storeBytes c.dst.toNat out).Inv := by
      obtain rfl | hfits := hfits
      · exact h
      · exact h.storeBytes _ _ hfits
    exact hstored.sequenceEffect_complete hc

theorem State.Inv.hostRead {s : State} (h : s.Inv) (o : BitVec 25) (size : AccessSize) : (s.hostRead o size).Inv := by
  obtain ⟨value, drawn, hread⟩ := s.hostRead_frame o size
  rw [hread]
  exact h.congr rfl rfl rfl rfl rfl rfl rfl

/-- Acceptance latches a command that has just passed its validation; the other two outcomes keep the one in flight. -/
theorem State.Inv.presentCommand {s : State} (h : s.Inv) (v : Word) : (s.presentCommand v).Inv := by
  obtain ⟨-, hdropped⟩ | ⟨-, -, hrejected⟩ | ⟨-, -, op, -, hvalid, haccepted⟩ := s.presentCommand_cases v
  · rw [hdropped]
    exact h.congr rfl rfl rfl rfl rfl rfl rfl
  · rw [hrejected]
    exact h.congr rfl rfl rfl rfl rfl rfl rfl
  · rw [haccepted]
    exact { h with latched_valid := fun c hc => by cases hc; exact hvalid }

/-- Only a `CMD` write can change which command is in flight. -/
theorem State.writeReg_lc_of_ne_cmd (s : State) {r : Reg} (v : Word) (hr : r ≠ .cmd) : (s.writeReg r v).lc = s.lc := by
  cases r
  case cmd => exact absurd rfl hr
  all_goals rfl

theorem State.Inv.writeReg {s : State} (h : s.Inv) (r : Reg) (v : Word) : (s.writeReg r v).Inv := by
  by_cases hr : r = .cmd
  · subst hr
    exact h.presentCommand v
  · obtain ⟨hparams, hmem, hvalid, haddr, hlen, hcount, -⟩ := s.writeReg_frame r v
    exact h.congr hparams hmem hvalid haddr hlen hcount (s.writeReg_lc_of_ne_cmd v hr)

theorem State.Inv.hostWrite {s t : State} {o : BitVec 25} {size : AccessSize} {v : Word} (h : s.Inv)
    (hwrite : s.hostWrite o size v = .next t) : t.Inv := by
  obtain ⟨r, -, -, rfl⟩ | ⟨-, hfits, -, rfl⟩ | rfl := State.hostWrite_next hwrite
  · exact h.writeReg r v
  · exact h.storeBytes _ _ (by simpa using hfits)
  · exact h

/-- What reset leaves in FMEM is canonical and inside it, since the destination it scrambles is. -/
theorem State.Inv.scrambleDst_mem {s : State} (h : s.Inv) :
    s.scrambleDst.mem.wf = true ∧ s.scrambleDst.mem.within s.params.fmemSize = true := by
  obtain ⟨hsame, -⟩ | ⟨c, r, hc, hr, -, hscramble⟩ := s.scrambleDst_cases
  · rw [hsame]
    exact ⟨h.mem_wf, h.mem_within⟩
  · have hstored : (s.storeBytes r.base (freeBytes s.draws r.len)).Inv :=
      h.storeBytes _ _ (by simpa using h.dst_fits hc hr)
    rw [hscramble]
    exact ⟨hstored.mem_wf, hstored.mem_within⟩

theorem State.Inv.resetInput {s : State} (h : s.Inv) : s.resetInput.Inv := by
  obtain ⟨hwf, hwithin⟩ := h.scrambleDst_mem
  exact (State.powerUp_inv h.params_legal hwf hwithin).congr rfl rfl rfl rfl rfl rfl rfl

/-- Settles O38: each of the four things a step can be keeps the invariant, and so does taking the input off the queue. -/
theorem everyStepKeepsTheStateInvariant : Obligations.EveryStepKeepsTheStateInvariant := by
  intro s t hinv h
  obtain ⟨-, ⟨rest, -, hengine⟩ | ⟨o, size, rest, -, rfl⟩ | ⟨o, size, v, rest, -, hwrite⟩ | ⟨rest, -, rfl⟩⟩ := step_next h
  · exact (hinv.withInputs rest).engineTurn hengine
  · exact (hinv.withInputs rest).hostRead o size
  · exact (hinv.withInputs rest).hostWrite hwrite
  · exact (hinv.withInputs rest).resetInput

/-! ### Validation, in the words of 60_exceptions.md R232, R233 -/

theorem isFrameCommand_iff {op : Instr} : isFrameCommand op = true ↔ op ≠ .nop ∧ op ≠ .dseq := by
  cases op <;> decide

theorem expLen_eq_expectedLength {op : Instr} (hf : isFrameCommand op = true) (n : Nat) :
    expLen op n = expectedLength op n := by
  cases op
  case nop | dseq => cases hf
  all_goals rfl

/-- A range of the statement as one of the model. -/
def spanOf (r : Nat × Nat) : Span := ⟨r.1, r.2⟩

theorem State.srcRanges_latch (s : State) {op : Instr} (hf : isFrameCommand op = true) :
    s.srcRanges (s.latch op) = (sources s op).map spanOf := by
  cases op
  case nop | dseq => cases hf
  case delta =>
    have hprev : s.prevRanges = (if Instr.delta = .delta ∧ s.seqValid = true
        then [(s.prevAddr.toNat, s.prevLen.toNat)] else []).map spanOf := by
      simp [State.prevRanges, apply_ite (List.map spanOf), spanOf]
    exact congrArg (List.cons _) hprev
  all_goals rfl

theorem State.dstRange_latch (s : State) {op : Instr} (hf : isFrameCommand op = true) :
    (s.latch op).dstRange = some (spanOf (destination s op)) := by
  cases op
  case nop | dseq => cases hf
  all_goals rfl

/-- Two ranges that are not empty overlap exactly if they share a byte. -/
theorem Span.overlaps_iff_exists {r d : Span} (hr : 0 < r.len) (hd : 0 < d.len) :
    r.overlaps d = true ↔ ∃ a, r.base ≤ a ∧ a < r.base + r.len ∧ d.base ≤ a ∧ a < d.base + d.len := by
  simp only [Span.overlaps, Bool.and_eq_true, decide_eq_true_eq]
  constructor
  · intro h
    exact ⟨max r.base d.base, by omega⟩
  · rintro ⟨a, ha⟩
    omega

theorem zeroDimension_latch {s : State} {op : Instr} :
    ((s.latch op).w.toNat = 0 ∨ (s.latch op).h.toNat = 0) ↔ zeroDimension s := by
  simp [zeroDimension, State.latch, BitVec.toNat_eq]

theorem oddDimension_latch {s : State} {op : Instr} :
    ((s.latch op).w.toNat % 2 ≠ 0 ∨ (s.latch op).h.toNat % 2 ≠ 0) ↔ oddDimension s := by
  simp [oddDimension, State.latch]

/-- A frame of even dimensions that are not 0 has at least the four pixels of one 2×2 block. -/
theorem four_le_frameSize {s : State} (hz : ¬ zeroDimension s) (ho : ¬ oddDimension s) : 4 ≤ frameSize s := by
  obtain ⟨hw, hh⟩ := not_or.mp (mt (zeroDimension_latch (op := .nop)).mp hz)
  obtain ⟨hw', hh'⟩ := not_or.mp ho
  have hpos : 0 < frameSize s := Nat.mul_pos (Nat.pos_of_ne_zero hw) (Nat.pos_of_ne_zero hh)
  have hmod : frameSize s % 4 = 0 :=
    (Latched.quarter_even (c := s.latch .nop) (Nat.mod_two_ne_one.mp hw') (Nat.mod_two_ne_one.mp hh')).1
  omega

theorem destination_nonempty {s : State} (op : Instr) (hn : 4 ≤ frameSize s) : 0 < (destination s op).2 := by
  simp only [destination]
  split_ifs <;> omega

theorem sources_nonempty {s : State} {op : Instr} (hn : 4 ≤ frameSize s) (hm : ¬ dimensionMismatch s op) :
    ∀ r ∈ sources s op, 0 < r.2 := by
  have hlen : 0 < expectedLength op (frameSize s) := by
    simp only [expectedLength]
    split_ifs <;> omega
  obtain ⟨hsrc, hprev⟩ := not_or.mp hm
  intro r hr
  simp only [sources, List.mem_append, List.mem_singleton, List.mem_ite_nil_right] at hr
  obtain (rfl | ⟨-, rfl⟩) | ⟨⟨hop, hv⟩, rfl⟩ := hr
  · exact hlen
  · show 0 < 2 * (frameSize s / 4)
    omega
  · have heq : s.srcLen = s.prevLen := by
      by_contra hne
      exact hprev ⟨hop, hv, hne⟩
    rw [← heq, not_not.mp hsrc]
    exact hlen

section Conditions

variable {s : State} {op : Instr}

theorem addrRange_latch (hf : isFrameCommand op = true) :
    (s.srcRanges (s.latch op) ++ (s.latch op).dstRange.toList).all (fun r => r.fits s.params.fmemSize) = false
      ↔ addrRange s op := by
  rw [s.srcRanges_latch hf, s.dstRange_latch hf, Option.toList_some, ← List.map_singleton, ← List.map_append,
    List.all_eq_false]
  simp only [List.mem_map, exists_exists_and_eq_and, Span.fits, spanOf, decide_eq_true_eq, Nat.not_le, addrRange]

theorem dimensionMismatch_latch (hf : isFrameCommand op = true) :
    ((s.latch op).len.toNat ≠ expLen op (s.latch op).pixels
      ∨ (op = .delta ∧ s.seqValid = true ∧ s.prevLen ≠ (s.latch op).len)) ↔ dimensionMismatch s op := by
  rw [expLen_eq_expectedLength hf]
  simp only [dimensionMismatch, ne_comm (a := s.srcLen) (b := s.prevLen)]
  rfl

theorem overlap_latch (hf : isFrameCommand op = true) (hz : ¬ zeroDimension s) (ho : ¬ oddDimension s)
    (hm : ¬ dimensionMismatch s op) :
    (s.srcRanges (s.latch op)).any (fun r => (s.latch op).dstRange.toList.any fun d => r.overlaps d) = true
      ↔ overlap s op := by
  have hn := four_le_frameSize hz ho
  have hiff : ∀ r ∈ sources s op, (spanOf r).overlaps (spanOf (destination s op)) = true ↔ _ := fun r hr =>
    Span.overlaps_iff_exists (sources_nonempty hn hm r hr) (destination_nonempty op hn)
  rw [s.srcRanges_latch hf, s.dstRange_latch hf]
  simp only [List.any_map, List.any_eq_true, Option.toList_some, List.any_cons, List.any_nil, Bool.or_false,
    Function.comp_apply, overlap]
  exact exists_congr fun r => and_congr_right fun hr => hiff r hr

end Conditions

open Classical in
/-- The chain of R233 for a frame command; `DIMENSION_MISMATCH` is two tests of the model. -/
theorem State.validate_frame {s : State} {v : Word} {op : Instr} (hd : decode v = .ok op)
    (hf : isFrameCommand op = true) :
    s.validate v = if zeroDimension s then .zeroDimension else if oddDimension s then .oddDimension
      else if dimensionMismatch s op then .dimensionMismatch else if addrRange s op then .addrRange
      else if overlap s op then .overlap else .none := by
  have hchain : s.validate v = s.validateLatched (s.latch op) := by rw [State.validate, hd]
  have hop : ¬ isFrameCommand (s.latch op).op = false := ne_false_of_eq_true hf
  rw [hchain, State.validateLatched, if_neg hop, ← ite_or (α := Cause)]
  exact if_ctx_congr zeroDimension_latch (fun _ => rfl) fun hz =>
    if_ctx_congr oddDimension_latch (fun _ => rfl) fun ho =>
    if_ctx_congr (dimensionMismatch_latch hf) (fun _ => rfl) fun hm =>
    if_ctx_congr (addrRange_latch hf) (fun _ => rfl) fun _ =>
    if_congr (overlap_latch hf hz ho hm) rfl rfl

/-- Settles O22: an undecodable word is refused before any operand is looked at, `NOP` and `DSEQ` are no frame commands, and a
frame command runs through the chain of R233. -/
theorem validationReportsTheFirstCause : Obligations.ValidationReportsTheFirstCause := by
  intro s v
  refine ⟨fun e hd => ?_, fun op hd hframeless => ?_, fun op hd hnop hdseq => ?_⟩
  · rw [State.validate, hd]
  · rw [State.validate, hd]
    obtain rfl | rfl := hframeless <;> rfl
  · rw [State.validate_frame hd (isFrameCommand_iff.mpr ⟨hnop, hdseq⟩)]
    refine ⟨fun hz => if_pos hz, fun hz ho => ?_, fun hz ho hm => ?_, fun hz ho hm ha => ?_,
      fun hz ho hm ha hov => ?_, fun hz ho hm ha hov => ?_⟩
    · rw [if_neg hz, if_pos ho]
    · rw [if_neg hz, if_neg ho, if_pos hm]
    · rw [if_neg hz, if_neg ho, if_neg hm, if_pos ha]
    · rw [if_neg hz, if_neg ho, if_neg hm, if_neg ha, if_pos hov]
    · rw [if_neg hz, if_neg ho, if_neg hm, if_neg ha, if_neg hov]

/-! ### A `CMD` write, and the engine's turn that performs it -/

theorem step_writeCmd {s : State} {v : Word} {rest : List Input} (hp : s.params.legal = true)
    (hi : s.inputs = .write 0x20#25 .b4 v :: rest) : step s = .next ((s.withInputs rest).presentCommand v) :=
  step_writeReg .cmd hp hi

/-- Settles O23: the step is the `CMD` write, and each premise picks one of its three outcomes. -/
theorem commandWriteIsDroppedRejectedOrAccepted : Obligations.CommandWriteIsDroppedRejectedOrAccepted := by
  intro s v rest hp hi
  rw [step_writeCmd hp hi]
  refine ⟨fun hbusy => ?_, fun hidle hinvalid => ?_, fun hidle hvalid => ?_⟩
  · obtain ⟨c, hc⟩ := Option.ne_none_iff_exists'.mp hbusy
    rw [State.presentCommand_busy (s := s.withInputs rest) v hc]
    rfl
  · rw [State.presentCommand_rejects (s := s.withInputs rest) hidle hinvalid]
    rfl
  · obtain ⟨op, hd, -, haccepted⟩ := State.presentCommand_accepts (s := s.withInputs rest) hidle hvalid
    exact ⟨op, hd, by rw [haccepted]; rfl⟩

/-- Settles O5: with a command latched the engine's turn is its meaning. -/
theorem engineStepPerformsTheLatchedCommand : Obligations.EngineStepPerformsTheLatchedCommand := by
  intro s c hp hc
  refine ⟨fun hi => ?_, fun rest hi => ?_⟩
  · rw [step_empty hp hi, engineTurn_some hc]
  · rw [step_input hp hi]
    exact engineTurn_some (s := s.withInputs rest) hc

theorem State.withFetchWord_eq {s : State} {nbits w : Nat} {i : Instr} (hd : decodeTableWord nbits w = some i) :
    s.withFetchWord nbits w = { s with
      lc := some (s.latch i), inputs := if s.inputs = [] then [] else .engine :: s.inputs } := by
  cases hi : s.inputs <;> simp [State.withFetchWord, State.loadWord, hd, hi]

/-- Settles O6: a word that decodes is placed as the latched command with the engine next, so O5 says what the step does. -/
theorem placedWordIsPerformedByTheNextStep : Obligations.PlacedWordIsPerformedByTheNextStep := by
  intro s nbits w i hp hd
  rw [State.withFetchWord_eq hd]
  obtain ⟨hempty, hqueued⟩ := engineStepPerformsTheLatchedCommand { s with
    lc := some (s.latch i), inputs := if s.inputs = [] then [] else .engine :: s.inputs } (s.latch i) hp rfl
  exact ⟨fun hi => hempty (if_pos hi), fun hi => hqueued s.inputs (if_neg hi)⟩

/-- Settles O7: the write is the accepting case of O23, and the engine's turn on the then empty queue is the meaning. -/
theorem acceptedWordRunsAsDecoded : Obligations.AcceptedWordRunsAsDecoded := by
  intro s v i hp hidle hd hvalid hi
  obtain ⟨-, -, haccepts⟩ := commandWriteIsDroppedRejectedOrAccepted s v [] hp hi
  obtain ⟨op, hop, hwrite⟩ := haccepts hidle hvalid
  obtain rfl : i = op := Except.ok.inj (hd.symm.trans hop)
  rw [run_succ 1 hwrite, run_one]
  exact step_empty hp rfl

/-- Settles O10: the meaning of `NOP` is the completion alone. -/
theorem nopOnlyCompletes : Obligations.NopOnlyCompletes :=
  fun _ _ hc => execNop_eq hc

/-! ### The command in flight completes -/

theorem Latched.dstRange_of_frame {c : Latched} (hf : isFrameCommand c.op = true) : ∃ d, c.dstRange = some d := by
  unfold Latched.dstRange
  cases hop : c.op
  case nop | dseq => rw [hop] at hf; cases hf
  all_goals exact ⟨_, rfl⟩

/-- The bytes a valid frame command writes fit into FMEM (40_command_execution.md R113). -/
theorem State.Valid.output_fits {s : State} {c : Latched} (v : s.Valid c) (hf : isFrameCommand c.op = true) :
    c.dst.toNat + outLength c c.op ≤ s.params.fmemSize := by
  obtain ⟨d, hd⟩ := Latched.dstRange_of_frame hf
  have hmem : d ∈ c.dstRange.toList := Option.mem_toList.mpr hd
  have hfits := v.fits d (List.mem_append_right _ hmem)
  rwa [outLength_valid v d hmem] at hfits

theorem State.Valid.src_fits {s : State} {c : Latched} {base len : Nat} (v : s.Valid c)
    (hr : ⟨base, len⟩ ∈ s.srcRanges c) : base + len ≤ s.params.fmemSize :=
  v.fits ⟨base, len⟩ (List.mem_append_left _ hr)

/-- Under the invariant every range the command in flight reads or writes is inside FMEM, so its meaning answers a next state. -/
theorem State.Inv.exec_next {s : State} {c : Latched} (h : s.Inv) (hc : s.lc = some c) : ∃ t, exec c.op s = .next t := by
  cases hop : c.op
  case nop => exact ⟨_, execNop_eq hc⟩
  case dseq => exact ⟨_, execDseq_eq hc⟩
  all_goals
    have hf : isFrameCommand c.op = true := by rw [hop]; rfl
    have v := h.valid hc hf
    have hdst := v.output_fits hf
    rw [hop] at hdst
  case csc => exact ⟨_, execCsc_eq hc (v.src_fits (by simp [State.srcRanges, hop])) hdst⟩
  case sub => exact ⟨_, execSub_eq hc (v.src_fits (by simp [State.srcRanges, hop])) hdst⟩
  case ups => exact ⟨_, execUps_eq hc (v.src_fits (by simp [State.srcRanges, hop])) hdst⟩
  case pack =>
    have hsrc : c.src.toNat + 3 * c.pixels ≤ s.params.fmemSize := v.src_fits (by simp [State.srcRanges, hop])
    exact ⟨_, execPack_eq hc (by omega) (v.src_fits (by simp [State.srcRanges, hop])) hdst⟩
  case delta =>
    have hsrc := v.delta_src_fits hop
    cases hv : s.seqValid with
    | false => exact ⟨_, execDelta_anchor_eq hc hv hsrc hdst⟩
    | true =>
      have hprev := h.prev_fits hv
      rw [v.prev_eq hop hv] at hprev
      exact ⟨_, execDelta_difference_eq hc hv hsrc hprev hdst⟩

/-- Settles O39: the meaning answers a next state, and every completion ends the command and sets `DONE_P` alone. -/
theorem acceptedCommandCannotFail : Obligations.AcceptedCommandCannotFail := by
  intro s c hinv hc
  obtain ⟨t, ht⟩ := hinv.exec_next hc
  obtain ⟨-, hidle, hdone⟩ := exec_completes_status ht
  exact ⟨t, ht, hidle, hdone⟩

/-- The command in flight and all it reads of the state but FMEM are the same in `t` as in `s` (40_command_execution.md R116). -/
def State.SameCommand (s t : State) : Prop := t.lc = s.lc ∧ t.params = s.params ∧ s.SameSequence t

theorem State.SameCommand.lc_eq {s t : State} (h : s.SameCommand t) : t.lc = s.lc := by
  obtain ⟨hlc, -, -⟩ := h
  exact hlc

theorem State.SameCommand.respects {s t : State} (h : s.SameCommand t) (i : Input) : t.respects i = s.respects i := by
  obtain ⟨hlc, hparams, hvalid, haddr, hlen, -⟩ := h
  exact State.respects_congr hlc hparams hvalid haddr hlen i

theorem State.hostRead_inputs (s : State) (o : BitVec 25) (size : AccessSize) : (s.hostRead o size).inputs = s.inputs := by
  obtain ⟨value, drawn, hread⟩ := s.hostRead_frame o size
  rw [hread]

theorem State.hostRead_sameCommand (s : State) (o : BitVec 25) (size : AccessSize) : s.SameCommand (s.hostRead o size) := by
  refine ⟨?_, s.hostRead_params o size, s.hostRead_sameSequence o size⟩
  obtain ⟨value, drawn, hread⟩ := s.hostRead_frame o size
  rw [hread]

/-- While busy no register write touches the command in flight: one to `CMD` is dropped (40_command_execution.md R117). -/
theorem State.writeReg_lc_of_busy {s : State} {c : Latched} (r : Reg) (v : Word) (hc : s.lc = some c) :
    (s.writeReg r v).lc = s.lc := by
  by_cases hr : r = .cmd
  · subst hr
    rw [State.writeReg, State.presentCommand_busy v hc, State.pend_lc]
  · exact s.writeReg_lc_of_ne_cmd v hr

section HostWrite

variable {s t : State} {o : BitVec 25} {size : AccessSize} {v : Word}

theorem State.hostWrite_inputs (h : s.hostWrite o size v = .next t) : t.inputs = s.inputs := by
  obtain ⟨r, -, -, rfl⟩ | ⟨-, -, -, rfl⟩ | rfl := State.hostWrite_next h
  · obtain ⟨-, -, -, -, -, -, hinputs⟩ := s.writeReg_frame r v
    exact hinputs
  · rfl
  · rfl

theorem State.hostWrite_sameCommand {c : Latched} (hc : s.lc = some c) (h : s.hostWrite o size v = .next t) :
    s.SameCommand t := by
  refine ⟨?_, State.hostWrite_params h, State.hostWrite_sameSequence h⟩
  obtain ⟨r, -, -, rfl⟩ | ⟨-, -, -, rfl⟩ | rfl := State.hostWrite_next h
  · exact State.writeReg_lc_of_busy r v hc
  · rfl
  · rfl

/-- A host write that keeps the discipline does not fault (70_reset_and_hazards.md R275). -/
theorem State.hostWrite_of_respects (h : s.respects (.write o size v) = true) : ∃ t, s.hostWrite o size v = .next t := by
  rw [State.respects] at h
  rw [State.hostWrite]
  cases ht : s.target o size with
  | register r => exact ⟨_, rfl⟩
  | nothing => exact ⟨_, rfl⟩
  | fmem a n =>
    rw [ht] at h
    exact ⟨_, if_neg (by simpa using h)⟩

end HostWrite

/-- A host access that keeps the discipline goes on, is taken off the queue and leaves the command in flight to complete. -/
theorem step_access_sameCommand {s : State} {c : Latched} {i : Input} {rest : List Input} (hp : s.params.legal = true)
    (hc : s.lc = some c) (hi : s.inputs = i :: rest) (hengine : i ≠ .engine) (hreset : i ≠ .reset)
    (hrespects : s.respects i = true) : ∃ t, step s = .next t ∧ t.inputs = rest ∧ s.SameCommand t := by
  rw [step_input hp hi]
  cases i with
  | engine => exact absurd rfl hengine
  | reset => exact absurd rfl hreset
  | read o size =>
    exact ⟨_, rfl, (s.withInputs rest).hostRead_inputs o size, (s.withInputs rest).hostRead_sameCommand o size⟩
  | write o size v =>
    obtain ⟨t, ht⟩ := State.hostWrite_of_respects (s := s.withInputs rest) hrespects
    exact ⟨t, ht, State.hostWrite_inputs ht, State.hostWrite_sameCommand (s := s.withInputs rest) hc ht⟩

/-- Some run of at most `n` steps ends with the block idle and `DONE_P` set. -/
def State.CompletesWithin (s : State) (n : Nat) : Prop :=
  ∃ k ≤ n, ∃ t, Host.Core.run core k s = .next t ∧ t.lc = none ∧ t.irqStatus.getLsbD 0 = true

theorem State.completesWithin_of_step {s s' : State} {n : Nat} (hstep : step s = .next s') (h : s'.CompletesWithin n) :
    s.CompletesWithin (n + 1) := by
  obtain ⟨k, hk, hrun⟩ := h
  exact ⟨k + 1, Nat.succ_le_succ hk, run_succ k hstep ▸ hrun⟩

/-- A step that is the engine's turn completes the command in flight. -/
theorem State.Inv.completesWithin_of_engineNext {s : State} {c : Latched} (hinv : s.Inv) (hc : s.lc = some c)
    (hnext : engineNext s) (n : Nat) : s.CompletesWithin (n + 1) := by
  obtain ⟨hempty, hqueued⟩ := engineStepPerformsTheLatchedCommand s c hinv.params_legal hc
  have hexec : ∃ rest, step s = exec c.op (s.withInputs rest) := by
    obtain hi | ⟨rest, hi⟩ := hnext
    · exact ⟨s.inputs, hempty hi⟩
    · exact ⟨rest, hqueued rest hi⟩
  obtain ⟨rest, hstep⟩ := hexec
  obtain ⟨t, ht, hidle, hdone⟩ := acceptedCommandCannotFail (s.withInputs rest) c (hinv.withInputs rest) hc
  exact State.completesWithin_of_step (hstep.trans ht) ⟨0, Nat.zero_le n, t, run_zero t, hidle, by rw [hdone]; simp⟩

/-- Settles O41, by induction on the queue: a host access leaves the command in flight and the discipline of the rest as they
were, and the engine's turn, at the end of the queue at the latest, completes it. -/
theorem commandInFlightCompletes : Obligations.CommandInFlightCompletes := by
  intro s c hinv hc hhost
  change s.CompletesWithin (s.inputs.length + 1)
  induction hi : s.inputs generalizing s with
  | nil => exact hinv.completesWithin_of_engineNext hc (.inl hi) 0
  | cons i rest ih =>
    by_cases hengine : i = .engine
    · exact hinv.completesWithin_of_engineNext hc (.inr ⟨rest, hengine ▸ hi⟩) _
    · rw [hi] at hhost
      obtain ⟨hreset, hrespects⟩ := hhost i List.mem_cons_self
      obtain ⟨s', hstep, hi', hsame⟩ := step_access_sameCommand hinv.params_legal hc hi hengine hreset hrespects
      have hinv' : s'.Inv := everyStepKeepsTheStateInvariant s s' hinv hstep
      have hc' : s'.lc = some c := hsame.lc_eq.trans hc
      have hhost' : ∀ j ∈ s'.inputs, j ≠ .reset ∧ s'.respects j = true := by
        intro j hj
        rw [hsame.respects]
        exact hhost j (List.mem_cons_of_mem _ (hi' ▸ hj))
      exact State.completesWithin_of_step hstep (ih s' hinv' hc' hhost' hi')

/-! ### A command does not see the live operand registers -/

/-- Values for the six operand registers (10_state.md R23 to R28). -/
structure Operands where
  width : BitVec 16
  height : BitVec 16
  srcAddr : Word
  srcLen : Word
  auxAddr : Word
  dstAddr : Word

/-- `s` with other values in the six operand registers. -/
def State.withOperands (s : State) (o : Operands) : State :=
  { s with
    width := o.width, height := o.height, srcAddr := o.srcAddr, srcLen := o.srcLen, auxAddr := o.auxAddr
    dstAddr := o.dstAddr }

/-- A result with other values in the operand registers of the next state; a stop stays as it is. -/
def Result.withOperands (r : Result) (o : Operands) : Result :=
  match r with
  | .next t => .next (t.withOperands o)
  | .fault f => .fault f
  | .refused f => .refused f

section WithOperands

variable {s : State} {o : Operands}

theorem State.withLatched_withOperands {k k' : Latched → Result} (h : ∀ c, k' c = Result.withOperands (k c) o) :
    (s.withOperands o).withLatched k' = Result.withOperands (s.withLatched k) o := by
  have hlc : (s.withOperands o).lc = s.lc := rfl
  rw [State.withLatched, State.withLatched, hlc]
  cases s.lc with
  | none => rfl
  | some c => exact h c

theorem State.withBytes_withOperands {a n : Nat} {k k' : List Byte → Result}
    (h : ∀ bs, k' bs = Result.withOperands (k bs) o) :
    (s.withOperands o).withBytes a n k' = Result.withOperands (s.withBytes a n k) o := by
  by_cases hfits : a + n ≤ s.params.fmemSize
  · rw [State.withBytes_fits k hfits, State.withBytes_fits (s := s.withOperands o) k' hfits]
    exact h _
  · rw [State.withBytes, State.withBytes, if_neg hfits]
    exact if_neg hfits

theorem State.withStored_withOperands {a : Nat} {out : List Byte} {k k' : State → Result}
    (h : ∀ t : State, k' (t.withOperands o) = Result.withOperands (k t) o) :
    (s.withOperands o).withStored a out k' = Result.withOperands (s.withStored a out k) o := by
  by_cases hfits : a + out.length ≤ s.params.fmemSize
  · rw [State.withStored_fits k hfits, State.withStored_fits (s := s.withOperands o) k' hfits]
    exact h (s.storeBytes a out)
  · rw [State.withStored, State.withStored, if_neg hfits]
    exact if_neg hfits

end WithOperands

/-- The meaning of a command commutes with any change of the operand registers, stops included. -/
theorem exec_withOperands (i : Instr) (s : State) (o : Operands) :
    exec i (s.withOperands o) = Result.withOperands (exec i s) o := by
  cases i with
  | nop => exact State.withLatched_withOperands fun _ => rfl
  | dseq => exact State.withLatched_withOperands fun _ => rfl
  | csc =>
    exact State.withLatched_withOperands fun _ => State.withBytes_withOperands fun _ =>
      State.withStored_withOperands fun _ => rfl
  | sub =>
    exact State.withLatched_withOperands fun _ => State.withBytes_withOperands fun _ =>
      State.withBytes_withOperands fun _ => State.withStored_withOperands fun _ => rfl
  | ups =>
    exact State.withLatched_withOperands fun _ => State.withBytes_withOperands fun _ =>
      State.withStored_withOperands fun _ => rfl
  | pack =>
    exact State.withLatched_withOperands fun _ => State.withBytes_withOperands fun _ =>
      State.withBytes_withOperands fun _ => State.withBytes_withOperands fun _ =>
      State.withStored_withOperands fun _ => rfl
  | delta =>
    refine State.withLatched_withOperands fun c => State.withBytes_withOperands fun cur => ?_
    have hseq : (s.withOperands o).seqValid = s.seqValid := rfl
    by_cases hv : s.seqValid = true
    · rw [hseq, if_pos hv, if_pos hv]
      exact State.withBytes_withOperands fun _ => State.withStored_withOperands fun _ => rfl
    · rw [hseq, if_neg hv, if_neg hv]
      exact State.withStored_withOperands fun _ => rfl

/-- Settles O44: the meaning commutes with writing the operand registers. -/
theorem commandUsesOnlyLatchedOperands : Obligations.CommandUsesOnlyLatchedOperands := by
  intro i s t w h src len aux dst hexec
  calc exec i (s.withOperands ⟨w, h, src, len, aux, dst⟩)
      = Result.withOperands (exec i s) ⟨w, h, src, len, aux, dst⟩ := exec_withOperands i s _
    _ = .next (t.withOperands ⟨w, h, src, len, aux, dst⟩) := by rw [hexec]; rfl

end Sys2Proof.Machine
end

section
/-! The colour transform (41_color_transform.md): what `CSC` writes for any matrix, and the bounds of the default one. -/

namespace Sys2Proof.Machine

open Sys2Proof.Claims

/-! ### One output sample -/

/-- The stored sample is the truncated quotient modulo 256, whatever the matrix (41_color_transform.md R132, R135). -/
theorem channelOut_toNat (k : CoeffRow) (r g b : Byte) : ((channelOut k r g b).toNat : Int) = cscSample k r g b := by
  rw [channelOut, low8_toNat, tdiv_eq _ _ (by decide), channelSum, cscSample]

/-- Sample `k` of the plane computed from the raw frame at `a` is that of the pixel at `a + 3 * k` (20_memory.md R79). -/
theorem channelPlane_readBytes_toNat (row : CoeffRow) (m : Memory) (a : Nat) {n k : Nat} (hk : k < n) :
    ((byteAt (channelPlane row (m.readBytes a (3 * n)) n) k).toNat : Int)
      = cscSample row (m.read (a + 3 * k)) (m.read (a + 3 * k + 1)) (m.read (a + 3 * k + 2)) := by
  rw [byteAt_channelPlane _ _ hk, byteAt_readBytes _ _ (by omega), byteAt_readBytes _ _ (by omega),
    byteAt_readBytes _ _ (by omega), channelOut_toNat]
  rfl

/-! ### The planar frame in FMEM -/

/-- A completed store changes no register but `BUSY` and `DONE_P` (40_command_execution.md R114). -/
theorem State.complete_storeBytes_frame (s : State) (a : Nat) (out : List Byte) :
    { (s.storeBytes a out).complete with mem := s.mem } = { s with lc := none, irqStatus := s.irqStatus ||| 0b001#3 } :=
  rfl

/-- The planes of a stored planar frame stand one after the other from its base on (20_memory.md R80). -/
theorem Memory.read_writeBytes_cscFrame {m : Memory} (hw : m.wf = true) (d : Nat) (k : CscMatrix) (raw : List Byte)
    {n i : Nat} (hi : i < n) :
    (m.writeBytes d (cscFrame k raw n)).read (d + i) = byteAt (channelPlane k.y raw n) i
    ∧ (m.writeBytes d (cscFrame k raw n)).read (d + n + i) = byteAt (channelPlane k.u raw n) i
    ∧ (m.writeBytes d (cscFrame k raw n)).read (d + 2 * n + i) = byteAt (channelPlane k.v raw n) i := by
  obtain ⟨hy, hu, hv⟩ := Memory.read_writeBytes_three d (channelPlane k.y raw n) (channelPlane k.u raw n)
    (channelPlane k.v raw n) hw
  simp only [length_channelPlane] at hy hu hv
  exact ⟨hy i hi, hu i hi, by rw [Nat.two_mul, ← Nat.add_assoc d]; exact hv i hi⟩

/-- Settles O12: `CSC` stores the planar frame of the raw one and completes; the planes read back sample by sample, and a store
leaves the bytes outside its range alone. -/
theorem cscWritesThePlanarFrame : Obligations.CscWritesThePlanarFrame := by
  intro s c hc hwf hsrc hdst
  refine ⟨_, execCsc_eq hc hsrc hdst, State.complete_storeBytes_frame _ _ _, fun k hk => ?_, fun a ha => ?_⟩
  · obtain ⟨hy, hu, hv⟩ := Memory.read_writeBytes_cscFrame hwf c.dst.toNat s.params.cscK
      (s.mem.readBytes c.src.toNat (3 * c.pixels)) hk
    simp only [State.complete_mem, State.storeBytes_mem, hy, hu, hv]
    exact ⟨channelPlane_readBytes_toNat _ _ _ hk, channelPlane_readBytes_toNat _ _ _ hk,
      channelPlane_readBytes_toNat _ _ _ hk⟩
  · rw [State.complete_mem, State.storeBytes_mem]
    exact Memory.read_writeBytes_outside _ _ _ (by rwa [length_cscFrame])

/-! ### The default matrix -/

/-- The default sums over the cube of all pixels (41_color_transform.md R133): each is linear, so a positive coefficient takes
its least value at 0 and its greatest at 255, a negative one the other way round. -/
theorem channelSum_default_bounds (r g b : Byte) :
    (0 ≤ channelSum CscMatrix.default.y r g b ∧ channelSum CscMatrix.default.y r g b ≤ 2550000)
    ∧ (5000 ≤ channelSum CscMatrix.default.u r g b ∧ channelSum CscMatrix.default.u r g b ≤ 2424950)
    ∧ (6785 ≤ channelSum CscMatrix.default.v r g b ∧ channelSum CscMatrix.default.v r g b ≤ 2552450) := by
  have hr := r.isLt
  have hg := g.isLt
  have hb := b.isLt
  simp only [channelSum, CscMatrix.default]
  omega

/-- Of a sum that is not negative the truncated quotient is the floor. -/
theorem tdiv_eq_ediv_of_nonneg {x d : Int} (hx : 0 ≤ x) (hd : 0 < d) : tdiv x d = x / d := by
  rw [tdiv_eq _ _ hd, Int.tdiv_eq_ediv_of_nonneg hx]

/-- A sum below 256 whole units is stored without a wrap. -/
theorem channelOut_toNat_of_bounds {k : CoeffRow} {r g b : Byte} (hlo : 0 ≤ channelSum k r g b)
    (hhi : channelSum k r g b < 2560000) : ((channelOut k r g b).toNat : Int) = channelSum k r g b / 10000 := by
  rw [channelOut, low8_toNat, tdiv_eq_ediv_of_nonneg hlo (by decide)]
  omega

/-- Settles O18: the bounds of the three sums keep every quotient in 0..255; the corners of the cube attain them. -/
theorem defaultMatrixNeverWraps : Obligations.DefaultMatrixNeverWraps := by
  refine ⟨fun r g b => ?_, by decide⟩
  obtain ⟨hy, hu, hv⟩ := channelSum_default_bounds r g b
  have hbyte : ∀ k ∈ [CscMatrix.default.y, CscMatrix.default.u, CscMatrix.default.v],
      0 ≤ channelSum k r g b ∧ channelSum k r g b < 2560000 := by
    simp only [List.forall_mem_cons, List.not_mem_nil, false_imp_iff, implies_true, and_true]
    omega
  refine ⟨hy, hu, hv, fun k hk => ?_, ?_⟩
  · obtain ⟨hlo, hhi⟩ := hbyte k hk
    exact ⟨tdiv_eq_ediv_of_nonneg hlo (by decide), channelOut_toNat_of_bounds hlo hhi⟩
  · have hout := channelOut_toNat_of_bounds (k := CscMatrix.default.u) (r := r) (g := g) (b := b) (by omega) (by omega)
    omega

end Sys2Proof.Machine
end

section
/-! The chroma commands (42_chroma.md): a plane is fixed by its samples in raster order, what `SUB` and `UPS` write, and how far
upsampling undoes subsampling. -/

namespace Sys2Proof.Machine

open Sys2Proof.Claims

/-! ### Raster order -/

/-- The sample at row `r`, column `x` lies in the plane (20_memory.md R78). -/
theorem raster_lt {w h r x : Nat} (hr : r < h) (hx : x < w) : r * w + x < w * h := by
  rw [Nat.add_comm, Nat.mul_comm]
  exact Nat.add_mul_lt_mul_of_lt_of_lt hx hr

/-- Cell `(i, j)` lies in the quarter plane of a frame of even sides. -/
theorem Latched.cell_lt_quarter {c : Latched} (hw : c.w.toNat % 2 = 0) (hh : c.h.toNat % 2 = 0) {i j : Nat}
    (hi : i < c.h.toNat / 2) (hj : j < c.w.toNat / 2) : i * (c.w.toNat / 2) + j < c.pixels / 4 := by
  calc i * (c.w.toNat / 2) + j < c.w.toNat / 2 * (c.h.toNat / 2) := raster_lt hi hj
    _ = c.h.toNat / 2 * (c.w.toNat / 2) := Nat.mul_comm _ _
    _ = c.pixels / 4 := (Latched.quarter_even hw hh).2.symm

/-- A plane is its samples: two planes of one size are equal when they agree at every row and column. -/
theorem plane_eq_iff {p q : List Byte} {w h : Nat} (hp : p.length = w * h) (hq : q.length = w * h) :
    p = q ↔ ∀ r < h, ∀ x < w, byteAt p (r * w + x) = byteAt q (r * w + x) := by
  refine ⟨fun hpq _ _ _ _ => by rw [hpq], fun hall => List.ext_getElem (hp.trans hq.symm) fun k hkp hkq => ?_⟩
  have hk : k < w * h := hp ▸ hkp
  have hw : 0 < w := Nat.pos_of_mul_pos_right (Nat.zero_lt_of_lt hk)
  have hkey := hall (k / w) (Nat.div_lt_of_lt_mul hk) (k % w) (Nat.mod_lt k hw)
  rwa [Nat.div_add_mod', byteAt, byteAt, List.getD_eq_getElem _ _ hkp, List.getD_eq_getElem _ _ hkq] at hkey

/-- In a plane of even sides the positions are those of the 2×2 blocks. -/
theorem forall_positions_iff_forall_blocks {w h : Nat} (hw : w % 2 = 0) (hh : h % 2 = 0) (P : Nat → Nat → Prop) :
    (∀ r < h, ∀ x < w, P r x) ↔ ∀ i < h / 2, ∀ j < w / 2,
      P (2 * i) (2 * j) ∧ P (2 * i) (2 * j + 1) ∧ P (2 * i + 1) (2 * j) ∧ P (2 * i + 1) (2 * j + 1) := by
  constructor
  · intro hall i hi j hj
    exact ⟨hall _ (by omega) _ (by omega), hall _ (by omega) _ (by omega), hall _ (by omega) _ (by omega),
      hall _ (by omega) _ (by omega)⟩
  · intro hall r hr x hx
    obtain ⟨i, hi⟩ := Nat.even_or_odd' r
    obtain ⟨j, hj⟩ := Nat.even_or_odd' x
    obtain ⟨h00, h01, h10, h11⟩ := hall i (by omega) j (by omega)
    obtain rfl | rfl := hi
    · obtain rfl | rfl := hj
      exacts [h00, h01]
    · obtain rfl | rfl := hj
      exacts [h10, h11]

/-! ### Block means -/

theorem downCell_toNat (p : List Byte) (w i j : Nat) : (downCell p w i j).toNat = blockMean (byteAt p) w i j := by
  rw [downCell, mean4_toNat, blockMean]

theorem mean4_self (a : Byte) : mean4 a a a a = a := by
  apply BitVec.eq_of_toNat_eq
  rw [mean4_toNat]
  omega

/-- The mean stands for all four samples exactly when they are equal (42_chroma.md R155). -/
theorem mean4_eq_samples_iff {a b c d : Byte} :
    (mean4 a b c d = a ∧ mean4 a b c d = b ∧ mean4 a b c d = c ∧ mean4 a b c d = d) ↔ b = a ∧ c = a ∧ d = a := by
  constructor
  · rintro ⟨ha, hb, hc, hd⟩
    exact ⟨hb.symm.trans ha, hc.symm.trans ha, hd.symm.trans ha⟩
  · rintro ⟨rfl, rfl, rfl⟩
    simp only [mean4_self, and_self]

/-- Upsampling reads the mean of a position's block back (42_chroma.md R150, R151). -/
theorem byteAt_upPlane_downPlane (p : List Byte) {w h r x : Nat} (hw : w % 2 = 0) (hh : h % 2 = 0) (hr : r < h) (hx : x < w) :
    byteAt (upPlane (downPlane p w h) w h) (r * w + x) = downCell p w (r / 2) (x / 2) := by
  rw [byteAt_upPlane _ hr hx, byteAt_downPlane _ (by omega) (by omega)]

/-- Settles O19: each position of the round trip holds the mean of its block, so the plane comes back when every block's mean
is each of its samples. -/
theorem upsamplingReturnsTheBlockMean : Obligations.UpsamplingReturnsTheBlockMean := by
  intro p w h hw hh hp
  have hround {r x : Nat} (hr : r < h) (hx : x < w) := byteAt_upPlane_downPlane p hw hh hr hx
  refine ⟨fun r hr x hx => by rw [hround hr hx, downCell_toNat], ?_⟩
  rw [plane_eq_iff (length_upPlane _ w h) hp, forall_positions_iff_forall_blocks hw hh]
  refine forall₄_congr fun i hi j hj => ?_
  rw [hround (by omega) (by omega), hround (by omega) (by omega), hround (by omega) (by omega),
    hround (by omega) (by omega), show (2 * i + 1) / 2 = i by omega, show (2 * j + 1) / 2 = j by omega,
    Nat.mul_div_cancel_left i two_pos, Nat.mul_div_cancel_left j two_pos]
  exact mean4_eq_samples_iff

/-! ### `SUB` -/

/-- Two byte sequences written one after the other read back, each at its own place. -/
theorem Memory.read_writeBytes_two {m : Memory} (a : Nat) (xs ys : List Byte) (hw : m.wf = true) :
    (∀ i < xs.length, (m.writeBytes a (xs ++ ys)).read (a + i) = byteAt xs i)
    ∧ ∀ i < ys.length, (m.writeBytes a (xs ++ ys)).read (a + xs.length + i) = byteAt ys i := by
  obtain ⟨hx, hy, -⟩ := Memory.read_writeBytes_three a xs ys [] hw
  rw [List.append_nil] at hx hy
  exact ⟨hx, hy⟩

/-- Cell `(i, j)` of the subsampled plane that stands in FMEM from `a` on is the mean of its block (42_chroma.md R150). -/
theorem downPlane_readBytes_toNat (m : Memory) (a : Nat) {w h i j : Nat} (hi : i < h / 2) (hj : j < w / 2) :
    (byteAt (downPlane (m.readBytes a (w * h)) w h) (i * (w / 2) + j)).toNat = blockMean (fun x => m.read (a + x)) w i j := by
  have hsample {r x : Nat} (hr : r < h) (hx : x < w) := byteAt_readBytes m a (raster_lt hr hx)
  rw [byteAt_downPlane _ hi hj, downCell_toNat, blockMean, blockMean]
  simp only [Nat.add_assoc (_ * w)]
  rw [hsample (by omega) (by omega), hsample (by omega) (by omega), hsample (by omega) (by omega),
    hsample (by omega) (by omega)]

/-- Settles O13: `SUB` stores the two subsampled planes one after the other and completes; each cell reads back as the mean of
its block, and a store leaves the bytes outside its range alone. -/
theorem subWritesTheBlockMeans : Obligations.SubWritesTheBlockMeans := by
  intro s c hc hwf hw hh hsrc hdst
  have hq : c.pixels / 4 = c.h.toNat / 2 * (c.w.toNat / 2) := (Latched.quarter_even hw hh).2
  refine ⟨_, execSub_eq hc hsrc (hq ▸ hdst), State.complete_storeBytes_frame _ _ _, fun i hi j hj => ?_, fun a ha => ?_⟩
  · have hcell : i * (c.w.toNat / 2) + j < c.pixels / 4 := Latched.cell_lt_quarter hw hh hi hj
    obtain ⟨hu, hv⟩ := Memory.read_writeBytes_two c.dst.toNat
      (downPlane (s.mem.readBytes (c.src.toNat + c.pixels) c.pixels) c.w.toNat c.h.toNat)
      (downPlane (s.mem.readBytes (c.src.toNat + 2 * c.pixels) c.pixels) c.w.toNat c.h.toNat) hwf
    simp only [length_downPlane, ← hq] at hu hv
    rw [State.complete_mem, State.storeBytes_mem, hu _ hcell, hv _ hcell]
    exact ⟨downPlane_readBytes_toNat _ _ hi hj, downPlane_readBytes_toNat _ _ hi hj⟩
  · rw [State.complete_mem, State.storeBytes_mem]
    refine Memory.read_writeBytes_outside _ _ _ ?_
    rwa [List.length_append, length_downPlane, length_downPlane, ← hq, ← Nat.two_mul]

/-! ### `UPS` -/

/-- The three slices of the packed frame that stands in FMEM from `a` on (43_planar_packer.md R181). -/
theorem byteAt_slicePlanes_readBytes (m : Memory) (a : Nat) {n : Nat} (hn : n % 4 = 0) :
    (∀ k < n, byteAt (slicePlanes (m.readBytes a (3 * n / 2)) n).y k = m.read (a + k))
    ∧ ∀ k < n / 4, byteAt (slicePlanes (m.readBytes a (3 * n / 2)) n).u k = m.read (a + n + k)
      ∧ byteAt (slicePlanes (m.readBytes a (3 * n / 2)) n).v k = m.read (a + n + n / 4 + k) := by
  refine ⟨fun k hk => ?_, fun k hk => ⟨?_, ?_⟩⟩
  · rw [slicePlanes, byteAt_take _ hk, byteAt_readBytes _ _ (by omega)]
  · rw [slicePlanes, byteAt_take _ hk, byteAt_drop, byteAt_readBytes _ _ (by omega), Nat.add_assoc]
  · rw [slicePlanes, byteAt_drop, byteAt_readBytes _ _ (by omega), Nat.add_assoc a, Nat.add_assoc a]

theorem length_slicePlanes_y {f : List Byte} {n : Nat} (h : n ≤ f.length) : (slicePlanes f n).y.length = n :=
  List.length_take_of_le h

theorem length_upsFrame {f : List Byte} {w h : Nat} (hf : w * h ≤ f.length) :
    (upsFrame f (w * h) w h).length = 3 * (w * h) := by
  rw [upsFrame, List.length_append, List.length_append, length_slicePlanes_y hf, length_upPlane, length_upPlane]
  omega

/-- The planes of a stored `UPS` frame stand one after the other from its base on (20_memory.md R80). -/
theorem Memory.read_writeBytes_upsFrame {m : Memory} (hwf : m.wf = true) (d : Nat) {f : List Byte} {w h i : Nat}
    (hf : w * h ≤ f.length) (hi : i < w * h) :
    (m.writeBytes d (upsFrame f (w * h) w h)).read (d + i) = byteAt (slicePlanes f (w * h)).y i
    ∧ (m.writeBytes d (upsFrame f (w * h) w h)).read (d + w * h + i) = byteAt (upPlane (slicePlanes f (w * h)).u w h) i
    ∧ (m.writeBytes d (upsFrame f (w * h) w h)).read (d + 2 * (w * h) + i)
      = byteAt (upPlane (slicePlanes f (w * h)).v w h) i := by
  obtain ⟨hy, hu, hv⟩ := Memory.read_writeBytes_three d (slicePlanes f (w * h)).y (upPlane (slicePlanes f (w * h)).u w h)
    (upPlane (slicePlanes f (w * h)).v w h) hwf
  simp only [length_slicePlanes_y hf, length_upPlane] at hy hu hv
  exact ⟨hy i hi, hu i hi, by rw [Nat.two_mul, ← Nat.add_assoc d]; exact hv i hi⟩

/-- Settles O14: `UPS` stores the Y plane and the two upsampled planes one after the other and completes; each sample reads back
as the cell of the packed frame that covers it, and a store leaves the bytes outside its range alone. -/
theorem upsReplicatesTheChromaCells : Obligations.UpsReplicatesTheChromaCells := by
  intro s c hc hwf hw hh hsrc hdst
  have h4 : c.pixels % 4 = 0 := (Latched.quarter_even hw hh).1
  obtain ⟨hy, hchroma⟩ := byteAt_slicePlanes_readBytes s.mem c.src.toNat h4
  have hlen : c.pixels ≤ (s.mem.readBytes c.src.toNat (3 * c.pixels / 2)).length := by
    rw [Memory.length_readBytes]
    omega
  have hread {i : Nat} (hi : i < c.pixels) := Memory.read_writeBytes_upsFrame hwf c.dst.toNat hlen hi
  refine ⟨_, execUps_eq hc hsrc hdst, State.complete_storeBytes_frame _ _ _, fun k hk => ?_, fun r hr x hx => ?_,
    fun a ha => ?_⟩
  · exact (hread hk).1.trans (hy k hk)
  · obtain ⟨-, hu, hv⟩ := hread (raster_lt hr hx)
    obtain ⟨huCell, hvCell⟩ := hchroma _ (Latched.cell_lt_quarter hw hh (i := r / 2) (j := x / 2) (by omega) (by omega))
    exact ⟨hu.trans ((byteAt_upPlane _ hr hx).trans huCell), hv.trans ((byteAt_upPlane _ hr hx).trans hvCell)⟩
  · rw [State.complete_mem, State.storeBytes_mem]
    exact Memory.read_writeBytes_outside _ _ _ (ha.imp_right (Nat.add_le_add_left (length_upsFrame hlen).le _).trans)

end Sys2Proof.Machine
end

section
/-! The planar packer (43_planar_packer.md): `slice` and `pack` undo each other, and what `PACK` writes. -/

namespace Sys2Proof.Machine

open Sys2Proof.Claims

/-! ### `slice` and `pack` -/

/-- The three slices are consecutive and end with the frame, so packing restores a frame of any length. -/
theorem packPlanes_slicePlanes (f : List Byte) (n : Nat) :
    packPlanes (slicePlanes f n).y (slicePlanes f n).u (slicePlanes f n).v = f := by
  calc f.take n ++ (f.drop n).take (n / 4) ++ f.drop (n + n / 4)
      = f.take n ++ ((f.drop n).take (n / 4) ++ (f.drop n).drop (n / 4)) := by rw [List.append_assoc, List.drop_drop]
    _ = f := by rw [List.take_append_drop, List.take_append_drop]

/-- Slicing cuts a packed frame where its planes meet; the V plane is what is left. -/
theorem slicePlanes_packPlanes {y u : List Byte} (v : List Byte) {n : Nat} (hy : y.length = n) (hu : u.length = n / 4) :
    slicePlanes (packPlanes y u v) n = ⟨y, u, v⟩ := by
  have hyu : n + n / 4 = (y ++ u).length := by rw [List.length_append, hy, hu]
  rw [slicePlanes, packPlanes, hyu, List.drop_left, List.append_assoc, List.take_left' hy, List.drop_left' hy,
    List.take_left' hu]

/-- Settles O20: each direction is one of the two laws above. -/
theorem sliceAndPackUndoEachOther : Obligations.SliceAndPackUndoEachOther :=
  ⟨fun f n _ _ => packPlanes_slicePlanes f n, fun _ _ v _ hy hu _ => slicePlanes_packPlanes v hy hu⟩

/-! ### `PACK` -/

/-- A packed frame has half as many chroma bytes as luma bytes (20_memory.md R81). -/
theorem Latched.pixels_add_quarters {c : Latched} (hw : c.w.toNat % 2 = 0) (hh : c.h.toNat % 2 = 0) :
    c.pixels + 2 * c.quarter = 3 * c.pixels / 2 := by
  have h4 : c.pixels % 4 = 0 := (Latched.quarter_even hw hh).1
  rw [Latched.quarter]
  omega

/-- A Y plane of `n` bytes and two chroma planes of `q`, gathered in FMEM and stored as one packed frame, read back as the bytes
they were gathered from (43_planar_packer.md R180). -/
theorem Memory.read_writeBytes_packPlanes {m : Memory} (hwf : m.wf = true) (d a b b' n q : Nat) :
    (∀ k < n, (m.writeBytes d (packPlanes (m.readBytes a n) (m.readBytes b q) (m.readBytes b' q))).read (d + k)
      = m.read (a + k))
    ∧ ∀ k < q,
      (m.writeBytes d (packPlanes (m.readBytes a n) (m.readBytes b q) (m.readBytes b' q))).read (d + n + k) = m.read (b + k)
      ∧ (m.writeBytes d (packPlanes (m.readBytes a n) (m.readBytes b q) (m.readBytes b' q))).read (d + n + q + k)
        = m.read (b' + k) := by
  obtain ⟨hy, hu, hv⟩ := Memory.read_writeBytes_three d (m.readBytes a n) (m.readBytes b q) (m.readBytes b' q) hwf
  simp only [Memory.length_readBytes] at hy hu hv
  exact ⟨fun k hk => (hy k hk).trans (byteAt_readBytes m a hk), fun k hk =>
    ⟨(hu k hk).trans (byteAt_readBytes m b hk), (hv k hk).trans (byteAt_readBytes m b' hk)⟩⟩

/-- Settles O15: `PACK` stores the packed frame of the Y plane at `SRC` and the chroma pair at `AUX` and completes; the planes read
back byte for byte, and a store leaves the bytes outside its range alone. -/
theorem packConcatenatesThePlanes : Obligations.PackConcatenatesThePlanes := by
  intro s c hc hwf hw hh hsrc haux hdst
  have hlen : c.pixels + 2 * c.quarter = 3 * c.pixels / 2 := Latched.pixels_add_quarters hw hh
  obtain ⟨hy, hchroma⟩ := Memory.read_writeBytes_packPlanes hwf c.dst.toNat c.src.toNat c.aux.toNat
    (c.aux.toNat + c.quarter) c.pixels c.quarter
  refine ⟨_, execPack_eq hc (by omega) haux (hlen ▸ hdst), State.complete_storeBytes_frame _ _ _, hy, hchroma,
    fun a ha => ?_⟩
  rw [State.complete_mem, State.storeBytes_mem]
  refine Memory.read_writeBytes_outside _ _ _ ?_
  rwa [length_packPlanes, Memory.length_readBytes, Memory.length_readBytes, Memory.length_readBytes, Nat.add_assoc,
    ← Nat.two_mul, hlen]

end Sys2Proof.Machine
end

section
/-! The temporal delta encoder (44_temporal_delta.md): what `DELTA` and `DSEQ` do, and the reference decoder of a sequence. -/

namespace Sys2Proof.Machine

open Sys2Proof.Claims

/-! ### The sequence state -/

/-- Settles O11: the meaning of `DSEQ` is the cleared sequence state and the completion. -/
theorem dseqClearsTheSequence : Obligations.DseqClearsTheSequence :=
  fun _ _ hc => execDseq_eq hc

/-- A completed `DELTA` changes no register but `BUSY`, `DONE_P` and the sequence state of R203, whatever it stored. -/
theorem State.complete_sequenceUpdate_storeBytes_frame (s : State) (c : Latched) (a : Nat) (out : List Byte) :
    { ((s.storeBytes a out).sequenceUpdate c).complete with mem := s.mem } = { s with
      lc := none, irqStatus := s.irqStatus ||| 0b001#3
      seqValid := true, prevAddr := c.src, prevLen := c.len, deltaCount := s.deltaCount + 1 } :=
  rfl

/-! ### The coded frame -/

/-- Byte subtraction is the non-negative residue of the integer difference (44_temporal_delta.md R202). -/
theorem Byte.toNat_sub_eq_emod (a b : Byte) : ((a - b).toNat : Int) = ((a.toNat : Int) - (b.toNat : Int)) % 256 := by
  rw [BitVec.toNat_sub]
  omega

/-- Byte `j` of the coded frame of two frames in FMEM is the residue of the difference of their bytes `j`. -/
theorem deltaFrame_readBytes_toNat (m : Memory) (a b : Nat) {n j : Nat} (hj : j < n) :
    ((byteAt (deltaFrame (m.readBytes a n) (m.readBytes b n)) j).toNat : Int)
      = (((m.read (a + j)).toNat : Int) - ((m.read (b + j)).toNat : Int)) % 256 := by
  rw [byteAt_deltaFrame (by simpa using hj) (by simpa using hj), byteAt_readBytes _ _ hj, byteAt_readBytes _ _ hj,
    Byte.toNat_sub_eq_emod]

/-- A sequence of `n` stored bytes reads back byte for byte, and the bytes outside its range as before. -/
theorem Memory.read_writeBytes_of_length {m : Memory} (hwf : m.wf = true) (d : Nat) {out : List Byte} {n : Nat}
    (hlen : out.length = n) :
    (∀ j < n, (m.writeBytes d out).read (d + j) = byteAt out j)
    ∧ ∀ a, a < d ∨ d + n ≤ a → (m.writeBytes d out).read a = m.read a := by
  subst hlen
  exact ⟨fun _ hj => Memory.read_writeBytes_inside d out hwf hj, fun _ ha => Memory.read_writeBytes_outside m d out ha⟩

/-- Settles O16: outside a sequence `DELTA` stores the source frame itself. -/
theorem firstDeltaStoresTheAnchor : Obligations.FirstDeltaStoresTheAnchor := by
  intro s c hc hwf hv _ hsrc hdst
  obtain ⟨hread, hrest⟩ := Memory.read_writeBytes_of_length hwf c.dst.toNat
    (Memory.length_readBytes s.mem c.src.toNat c.len.toNat)
  exact ⟨_, execDelta_anchor_eq hc hv hsrc hdst, State.complete_sequenceUpdate_storeBytes_frame _ _ _ _,
    fun j hj => (hread j hj).trans (byteAt_readBytes _ _ hj), hrest⟩

/-- Settles O17: inside a sequence `DELTA` stores the coded frame against the bytes now at `PREV_ADDR`, which are as many as the
source frame's. -/
theorem laterDeltaStoresTheDifference : Obligations.LaterDeltaStoresTheDifference := by
  intro s c hc hwf hv _ hlen hsrc hdst hprev
  have hout : (deltaFrame (s.mem.readBytes c.src.toNat c.len.toNat) (s.mem.readBytes s.prevAddr.toNat c.len.toNat)).length
      = c.len.toNat := by
    rw [length_deltaFrame (by simp), Memory.length_readBytes]
  obtain ⟨hread, hrest⟩ := Memory.read_writeBytes_of_length hwf c.dst.toNat hout
  refine ⟨_, execDelta_difference_eq hc hv hsrc (hlen ▸ hprev) hdst, State.complete_sequenceUpdate_storeBytes_frame _ _ _ _,
    fun j hj => ?_, hrest⟩
  rw [← deltaFrame_readBytes_toNat _ _ _ hj, ← hread j hj]
  rfl

/-! ### The reference decoder -/

/-- Adding the previous byte back modulo 256 undoes the subtraction. -/
theorem Byte.ofNat_sub_add_emod (a b : Byte) : BitVec.ofNat 8 (((a - b).toNat + b.toNat) % 256) = a := by
  apply BitVec.eq_of_toNat_eq
  rw [BitVec.toNat_ofNat, BitVec.toNat_sub]
  omega

/-- One decoder step rebuilds a frame from its difference and the frame before it, and goes on from there. -/
theorem decodeFrom_deltaFrame_cons {cur prev : List Byte} (h : cur.length = prev.length) (ds : List (List Byte)) :
    decodeFrom prev (deltaFrame cur prev :: ds) = cur :: decodeFrom cur ds := by
  refine congrArg (fun r => r :: decodeFrom r ds) (List.ext_getElem (by simp [length_deltaFrame h, h]) fun i _ _ => ?_)
  simp only [deltaFrame, List.getElem_zipWith]
  exact Byte.ofNat_sub_add_emod _ _

/-- The decoder keeps pace with the encoder: both carry the source frame before. -/
theorem decodeFrom_codeFrom {prev : List Byte} {fs : List (List Byte)} (h : ∀ f ∈ fs, f.length = prev.length) :
    decodeFrom prev (codeFrom prev fs) = fs := by
  induction fs generalizing prev with
  | nil => rfl
  | cons f fs ih =>
    obtain ⟨hf, hfs⟩ := List.forall_mem_cons.mp h
    rw [codeFrom, decodeFrom_deltaFrame_cons hf, ih fun g hg => (hfs g hg).trans hf.symm]

/-- Settles O21: the anchor stands in the code verbatim, and the decoder goes on from it. -/
theorem deltaSequenceDecodesToItsSources : Obligations.DeltaSequenceDecodesToItsSources := by
  intro fs l h
  cases fs with
  | nil => rfl
  | cons f fs =>
    obtain ⟨hf, hfs⟩ := List.forall_mem_cons.mp h
    exact congrArg (f :: ·) (decodeFrom_codeFrom fun g hg => (hfs g hg).trans hf.symm)

end Sys2Proof.Machine
end

section
/-! Events and faults (60_exceptions.md): which input sets or clears a pending bit, and which step has no next state. -/

namespace Sys2Proof.Machine

open Sys2Proof.Claims

/-! ### The pending bits -/

/-- The ways one step can treat the pending bits, each with the event behind it (10_state.md R33, 60_exceptions.md R235, R241). -/
inductive State.PendingChange (s t : State) : Prop
  | kept (hirq : t.irqStatus = s.irqStatus)
  | completed (hnext : engineNext s) (hbusy : s.lc ≠ none) (hidle : t.lc = none)
      (hirq : t.irqStatus = s.irqStatus ||| donePending)
  | rejected (v : Word) (rest : List Input) (hi : s.inputs = .write 0x20#25 .b4 v :: rest) (hidle : s.lc = none)
      (hinvalid : s.validate v ≠ .none) (hirq : t.irqStatus = s.irqStatus ||| errPending)
  | overrun (v : Word) (rest : List Input) (hi : s.inputs = .write 0x20#25 .b4 v :: rest) (hbusy : s.lc ≠ none)
      (hirq : t.irqStatus = s.irqStatus ||| ovrPending)
  | acknowledged (v : Word) (rest : List Input) (hi : s.inputs = .write 0x30#25 .b4 v :: rest)
      (hirq : t.irqStatus = s.irqStatus &&& ~~~(v.extractLsb' 0 3))
  | reset (rest : List Input) (hi : s.inputs = .reset :: rest) (hirq : t.irqStatus = 0)

@[simp] theorem State.hostRead_irqStatus (s : State) (o : BitVec 25) (size : AccessSize) :
    (s.hostRead o size).irqStatus = s.irqStatus := by
  obtain ⟨value, drawn, hread⟩ := s.hostRead_frame o size
  rw [hread]

theorem State.writeReg_irqStatus_of_ne (s : State) {r : Reg} (v : Word) (hcmd : r ≠ .cmd) (hack : r ≠ .irqStatus) :
    (s.writeReg r v).irqStatus = s.irqStatus := by
  cases r
  case cmd => exact absurd rfl hcmd
  case irqStatus => exact absurd rfl hack
  all_goals rfl

theorem engineTurn_pendingChange {s t : State} {rest : List Input} (hnext : engineNext s)
    (h : (s.withInputs rest).engineTurn = .next t) : s.PendingChange t := by
  obtain ⟨-, rfl⟩ | ⟨c, -, hexec⟩ := engineTurn_next h
  · exact .kept rfl
  · obtain ⟨hbusy, hidle, hirq⟩ := exec_completes_status hexec
    exact .completed hnext hbusy hidle hirq

/-- A register write leaves the pending bits alone but for `CMD`, which has three outcomes, and `IRQ_STATUS`. -/
theorem State.writeReg_pendingChange {s : State} {r : Reg} {v : Word} {rest : List Input}
    (hi : s.inputs = .write r.offset .b4 v :: rest) : s.PendingChange ((s.withInputs rest).writeReg r v) := by
  by_cases hcmd : r = .cmd
  · subst hcmd
    obtain ⟨hbusy, hdropped⟩ | ⟨hidle, hinvalid, hrejected⟩ | ⟨-, -, op, -, -, haccepted⟩ :=
      (s.withInputs rest).presentCommand_cases v
    · exact .overrun v rest hi hbusy (by rw [State.writeReg, hdropped]; rfl)
    · exact .rejected v rest hi hidle hinvalid (by rw [State.writeReg, hrejected]; rfl)
    · exact .kept (by rw [State.writeReg, haccepted]; rfl)
  · by_cases hack : r = .irqStatus
    · subst hack
      exact .acknowledged v rest hi rfl
    · exact .kept (State.writeReg_irqStatus_of_ne _ v hcmd hack)

theorem step_pendingChange {s t : State} (h : step s = .next t) : s.PendingChange t := by
  obtain ⟨-, ⟨rest, hturn, hengine⟩ | ⟨o, size, rest, -, rfl⟩ | ⟨o, size, v, rest, hi, hwrite⟩ | ⟨rest, hi, rfl⟩⟩ :=
    step_next h
  · have hnext : engineNext s := hturn.imp And.left fun hi => ⟨rest, hi⟩
    exact engineTurn_pendingChange hnext hengine
  · exact .kept (State.hostRead_irqStatus _ o size)
  · obtain ⟨r, rfl, rfl, rfl⟩ | ⟨-, -, -, rfl⟩ | rfl := State.hostWrite_next hwrite
    · exact State.writeReg_pendingChange hi
    · exact .kept rfl
    · exact .kept rfl
  · exact .reset rest hi rfl

/-- A bit that a write to `IRQ_STATUS` clears is written as 1 (10_state.md R33). -/
theorem getLsbD_of_acknowledged {x : BitVec 3} {v : Word} {i : Nat} (hset : x.getLsbD i = true)
    (hclear : (x &&& ~~~(v.extractLsb' 0 3)).getLsbD i = false) : v.getLsbD i = true := by
  have hlt : i < 3 := BitVec.lt_of_getLsbD hset
  simpa [hset, hlt] using hclear

/-- Settles O28: the events only add pending bits, which leaves reset and the acknowledgement to clear one. -/
theorem pendingBitsStayUntilAcknowledged : Obligations.PendingBitsStayUntilAcknowledged := by
  intro s t i h hset hclear
  cases step_pendingChange h with
  | kept hirq | completed _ _ _ hirq | rejected _ _ _ _ _ hirq | overrun _ _ _ _ hirq =>
    simp [hirq, hset] at hclear
  | acknowledged v rest hi hirq =>
    rw [hirq] at hclear
    exact .inr ⟨v, rest, hi, getLsbD_of_acknowledged hset hclear⟩
  | reset rest hi _ => exact .inl ⟨rest, hi⟩

/-- An event that adds bit `k` newly sets no other bit. -/
theorem eq_of_newly_set {x b : BitVec 3} {i k : Nat} (hb : b = BitVec.twoPow 3 k) (hclear : x.getLsbD i = false)
    (hset : (x ||| b).getLsbD i = true) : i = k := by
  obtain ⟨-, rfl⟩ : 3 > k ∧ k = i := by simpa [hb, hclear, BitVec.getLsbD_twoPow] using hset
  rfl

/-- A newly set pending bit names its event (60_exceptions.md R235). -/
theorem State.PendingChange.newly_set {s t : State} {i : Nat} (h : s.PendingChange t)
    (hclear : s.irqStatus.getLsbD i = false) (hset : t.irqStatus.getLsbD i = true) :
    (i = 0 ∧ s.lc ≠ none ∧ t.lc = none ∧ engineNext s)
    ∨ (i = 1 ∧ s.lc = none ∧ ∃ v rest, s.inputs = .write 0x20#25 .b4 v :: rest ∧ s.validate v ≠ .none)
    ∨ (i = 2 ∧ s.lc ≠ none ∧ ∃ v rest, s.inputs = .write 0x20#25 .b4 v :: rest) := by
  cases h with
  | kept hirq | acknowledged _ _ _ hirq | reset _ _ hirq => simp [hirq, hclear] at hset
  | completed hnext hbusy hidle hirq =>
    exact .inl ⟨eq_of_newly_set rfl hclear (hirq ▸ hset), hbusy, hidle, hnext⟩
  | rejected v rest hi hidle hinvalid hirq =>
    exact .inr (.inl ⟨eq_of_newly_set rfl hclear (hirq ▸ hset), hidle, v, rest, hi, hinvalid⟩)
  | overrun v rest hi hbusy hirq =>
    exact .inr (.inr ⟨eq_of_newly_set rfl hclear (hirq ▸ hset), hbusy, v, rest, hi⟩)

/-- Settles O29: bits 0, 1 and 2 each pick their own event out of the three that set one. -/
theorem pendingBitsAreSetByTheirEvents : Obligations.PendingBitsAreSetByTheirEvents := by
  intro s t h
  have hchange := step_pendingChange h
  refine ⟨fun hclear hset => ?_, fun hclear hset => ?_, fun hclear hset => ?_⟩
  · obtain ⟨-, hdone⟩ | ⟨⟨⟩, -⟩ | ⟨⟨⟩, -⟩ := hchange.newly_set hclear hset
    exact hdone
  · obtain ⟨⟨⟩, -⟩ | ⟨-, herr⟩ | ⟨⟨⟩, -⟩ := hchange.newly_set hclear hset
    exact herr
  · obtain ⟨⟨⟩, -⟩ | ⟨⟨⟩, -⟩ | ⟨-, hovr⟩ := hchange.newly_set hclear hset
    exact hovr

/-! ### The one stop -/

theorem State.Inv.exists_engineTurn_next {s : State} (h : s.Inv) : ∃ t, s.engineTurn = .next t := by
  cases hc : s.lc with
  | none => exact ⟨s, engineTurn_none hc⟩
  | some c =>
    rw [engineTurn_some hc]
    exact h.exec_next hc

/-- With no command in flight no byte is under one. -/
theorem State.lc_ne_none_of_underCommand {s : State} {a n : Nat} (h : s.underCommand a n = true) : s.lc ≠ none := by
  intro hidle
  have hfree : s.underCommand a n = false :=
    State.underCommand_eq_false.mpr fun i _ => by rw [State.inFlightBytes, hidle]
  rw [hfree] at h
  cases h

/-- The only host write that does not go on is one to FMEM under a running command (20_memory.md R72). -/
theorem State.hostWrite_next_or_fault (s : State) (o : BitVec 25) (size : AccessSize) (v : Word) :
    (∃ t, s.hostWrite o size v = .next t)
    ∨ (s.hostWrite o size v = .fault .hostWriteUnderCommand ∧ s.lc ≠ none ∧ 0x01000000 ≤ o.toNat) := by
  rw [State.hostWrite]
  obtain ⟨r, -, -, htarget⟩ | ⟨hwindow, -, -, htarget⟩ | htarget := s.target_cases o size
  · rw [htarget]
    exact .inl ⟨_, rfl⟩
  · rw [htarget]
    by_cases hunder : s.underCommand (o.toNat - 0x01000000) size.bytes = true
    · exact .inr ⟨if_pos hunder, State.lc_ne_none_of_underCommand hunder, hwindow⟩
    · exact .inl ⟨_, if_neg hunder⟩
  · rw [htarget]
    exact .inl ⟨_, rfl⟩

/-- Settles O40: reads and resets always go on, the engine's turn does under the invariant, and a host write stops only under a
command. -/
theorem onlyAWriteUnderACommandStops : Obligations.OnlyAWriteUnderACommandStops := by
  intro s hinv
  cases hi : s.inputs with
  | nil =>
    rw [step_empty hinv.params_legal hi]
    exact .inl hinv.exists_engineTurn_next
  | cons i rest =>
    rw [step_input hinv.params_legal hi]
    cases i with
    | read o size => exact .inl ⟨_, rfl⟩
    | reset => exact .inl ⟨_, rfl⟩
    | engine => exact .inl (hinv.withInputs rest).exists_engineTurn_next
    | write o size v =>
      obtain hnext | ⟨hfault, hbusy, hwindow⟩ := (s.withInputs rest).hostWrite_next_or_fault o size v
      · exact .inl hnext
      · exact .inr ⟨hfault, hbusy, o, size, v, rest, rfl, hwindow⟩

end Sys2Proof.Machine
end

section
/-! The reset input (70_reset_and_hazards.md): what it restores, what it keeps of FMEM, and what becomes of the destination of the
command it discards. -/

namespace Sys2Proof.Machine

theorem step_reset {s : State} {rest : List Input} (hp : s.params.legal = true) (hi : s.inputs = .reset :: rest) :
    step s = .next (s.withInputs rest).resetInput :=
  step_input hp hi

theorem State.scrambleDst_of_idle {s : State} (h : s.lc = none) : s.scrambleDst = s := by
  rw [State.scrambleDst, h]

/-- A command in flight with a destination has each byte of it drawn anew (70_reset_and_hazards.md R271). -/
theorem State.scrambleDst_of_dstRange {s : State} {c : Latched} {r : Span} (hc : s.lc = some c) (hr : c.dstRange = some r) :
    s.scrambleDst = { s.storeBytes r.base (freeBytes s.draws r.len) with draws := s.draws + r.len } := by
  simp only [State.scrambleDst, hc, hr]

theorem State.resetInput_read_of_not_inFlightDst {s : State} {a : Nat} (h : s.inFlightDst a = false) :
    s.resetInput.mem.read a = s.mem.read a := by
  by_contra hchanged
  rw [State.resetInput_changes_mem hchanged] at h
  cases h

/-- Settles O35: the registers are those of power-up, idle no byte is drawn, and a byte that changes is a destination byte. -/
theorem resetInputRestoresTheRegisters : Obligations.ResetInputRestoresTheRegisters := by
  intro s rest hp hi
  refine ⟨_, step_reset hp hi, rfl, fun hidle => ?_, fun a ha => ?_⟩
  · have hkept : (s.withInputs rest).scrambleDst = s.withInputs rest := State.scrambleDst_of_idle hidle
    rw [State.resetInput_mem, State.resetInput_draws, hkept]
    exact ⟨rfl, rfl⟩
  · exact State.resetInput_read_of_not_inFlightDst (s := s.withInputs rest) ha

/-- Settles O36: the draws are stored over the destination in order, and each reads back in its place. -/
theorem resetLeavesFreeDestinationBytes : Obligations.ResetLeavesFreeDestinationBytes := by
  intro s c r rest hp hwf hi hc hr
  have hdrawn := State.scrambleDst_of_dstRange (s := s.withInputs rest) hc hr
  obtain ⟨hread, -⟩ := Memory.read_writeBytes_of_length hwf r.base (length_freeBytes s.draws r.len)
  refine ⟨_, step_reset hp hi, fun i hlt => ?_, ?_⟩
  · rw [State.resetInput_mem, hdrawn]
    exact (hread i hlt).trans (byteAt_freeBytes s.draws hlt)
  · rw [State.resetInput_draws, hdrawn]
    rfl

end Sys2Proof.Machine
end
